-- ==== Sys2Proof/Word.lean ====
section
/-! DEFINITION. The word types of sprite_blitter: bytes of the framebuffer and of asset memory, and 32-bit registers. -/

namespace Sys2Proof

/-- A byte of the framebuffer or of asset memory (spec/00_scope.md section 5.1): bit 0 is the top pixel. -/
abbrev Byte := BitVec 8

/-- A 32-bit register (spec/10_state.md section 4.1). -/
abbrev Word := BitVec 32

/-- The widened accumulator of spec/40_common_pipeline.md R62. -/
abbrev Half := BitVec 16

end Sys2Proof
end

