-- ==== Sys2Proof/Syntax.lean ====
section
/-! DEFINITION. The draw commands of sprite_blitter, and the 128-bit descriptor that encodes one. -/

namespace Sys2Proof

/-- The six draw commands, with the operands of spec/30_encoding.md R44 in the source's order. Coordinates, asset
references and frame indices are mathematical integers (R38, R39, R40); `WellFormed.lean` gives their ranges. -/
inductive Instr where
  /-- `drawOverwrite x, y, bitmap, frame` (spec/41_unmasked_family.md R69). -/
  | drawOverwrite (x y : Int) (bitmap frame : Nat)
  /-- `drawSelfMasked x, y, bitmap, frame` (R70). -/
  | drawSelfMasked (x y : Int) (bitmap frame : Nat)
  /-- `drawErase x, y, bitmap, frame` (R71). -/
  | drawErase (x y : Int) (bitmap frame : Nat)
  /-- `drawExternalMask x, y, bitmap, mask, frame, maskFrame` (spec/42_masked_family.md R74). -/
  | drawExternalMask (x y : Int) (bitmap mask frame maskFrame : Nat)
  /-- `drawPlusMask x, y, bitmap, frame` (R75). -/
  | drawPlusMask (x y : Int) (bitmap frame : Nat)
  /-- `drawAuto x, y, bitmap, mask, frame, maskFrame` (R76). -/
  | drawAuto (x y : Int) (bitmap mask frame maskFrame : Nat)
deriving DecidableEq, Repr

/-- The 128-bit descriptor `D = CMD3 : CMD2 : CMD1 : CMD0` (spec/30_encoding.md R36), as its four register words. -/
structure Descriptor where
  /-- `D[31:0]`: `MODE`, `RSV0`, `FRAME`, `MASK_FRAME`, `RSV1`. -/
  cmd0 : Word
  /-- `D[63:32]`: `X`, `Y`. -/
  cmd1 : Word
  /-- `D[95:64]`: `BITMAP_PTR`. -/
  cmd2 : Word
  /-- `D[127:96]`: `MASK_PTR`. -/
  cmd3 : Word
deriving DecidableEq, Repr

end Sys2Proof
end

