-- ==== Sys2Proof/WellFormed.lean ====
section
/-! DEFINITION. Which commands the assembler of spec/30_encoding.md R44 accepts: the range of each operand. -/

namespace Sys2Proof

/-- `x` and `y` are "signed decimal or hexadecimal integers in `-32768 .. 32767`" (R44, R38). -/
def coordOk (v : Int) : Bool := decide (-32768 ≤ v) && decide (v ≤ 32767)

/-- An asset reference is a 32-bit unsigned byte address, 0 the null reference (R40). -/
def pointerOk (a : Nat) : Bool := decide (a < 2 ^ 32)

/-- "`frame`, `maskFrame` are integers `0 .. 255`" (R44, R39). -/
def frameOk (f : Nat) : Bool := decide (f < 256)

/-- Every operand of the command is in the range of its field. -/
def Instr.wellFormed : Instr → Bool
  | .drawOverwrite x y bitmap frame => coordOk x && coordOk y && pointerOk bitmap && frameOk frame
  | .drawSelfMasked x y bitmap frame => coordOk x && coordOk y && pointerOk bitmap && frameOk frame
  | .drawErase x y bitmap frame => coordOk x && coordOk y && pointerOk bitmap && frameOk frame
  | .drawExternalMask x y bitmap mask frame maskFrame =>
      coordOk x && coordOk y && pointerOk bitmap && pointerOk mask && frameOk frame && frameOk maskFrame
  | .drawPlusMask x y bitmap frame => coordOk x && coordOk y && pointerOk bitmap && frameOk frame
  | .drawAuto x y bitmap mask frame maskFrame =>
      coordOk x && coordOk y && pointerOk bitmap && pointerOk mask && frameOk frame && frameOk maskFrame

end Sys2Proof
end

