-- ==== Sys2Proof/Decode.lean ====
section
/-! DEFINITION. The decoder of the 128-bit descriptor, total and rejecting by name, and the encoder beside it. -/

namespace Sys2Proof

/-- Why a descriptor is illegal (spec/30_encoding.md R41). Both raise `Fault(ILLEGAL_CMD)` at issue. -/
inductive DecodeError where
  /-- A bit of `RSV0` or `RSV1` is 1. -/
  | reservedBits
  /-- `MODE` is 6 or 7. -/
  | reservedMode
deriving DecidableEq, Repr

/-- What the decoder answers: one of the six commands, or illegal (R46: decode is total). -/
inductive Decoded where
  | command (i : Instr)
  | illegal (e : DecodeError)
deriving DecidableEq, Repr

/-! The fields of R36's table. -/

def Descriptor.mode (d : Descriptor) : BitVec 3 := d.cmd0.extractLsb' 0 3
def Descriptor.rsv0 (d : Descriptor) : BitVec 5 := d.cmd0.extractLsb' 3 5
def Descriptor.frame (d : Descriptor) : Nat := (d.cmd0.extractLsb' 8 8).toNat
def Descriptor.maskFrame (d : Descriptor) : Nat := (d.cmd0.extractLsb' 16 8).toNat
def Descriptor.rsv1 (d : Descriptor) : BitVec 8 := d.cmd0.extractLsb' 24 8
/-- `x = sext_16(CMD1[15:0])` (R38). -/
def Descriptor.x (d : Descriptor) : Int := (d.cmd1.extractLsb' 0 16).toInt
/-- `y = sext_16(CMD1[31:16])` (R38). -/
def Descriptor.y (d : Descriptor) : Int := (d.cmd1.extractLsb' 16 16).toInt
def Descriptor.bitmapPtr (d : Descriptor) : Nat := d.cmd2.toNat
def Descriptor.maskPtr (d : Descriptor) : Nat := d.cmd3.toNat

/-- Decoding (R37, R41, R42): only `CMD0` decides the command; fields a mode does not use are ignored, whatever they
hold (log entry 11). -/
def decode (d : Descriptor) : Decoded :=
  if d.rsv0 ≠ 0 ∨ d.rsv1 ≠ 0 then .illegal .reservedBits
  else match d.mode.toNat with
    | 0 => .command (.drawOverwrite d.x d.y d.bitmapPtr d.frame)
    | 1 => .command (.drawSelfMasked d.x d.y d.bitmapPtr d.frame)
    | 2 => .command (.drawErase d.x d.y d.bitmapPtr d.frame)
    | 3 => .command (.drawExternalMask d.x d.y d.bitmapPtr d.maskPtr d.frame d.maskFrame)
    | 4 => .command (.drawPlusMask d.x d.y d.bitmapPtr d.frame)
    | 5 => .command (.drawAuto d.x d.y d.bitmapPtr d.maskPtr d.frame d.maskFrame)
    | _ => .illegal .reservedMode

/-- The four register words of R36 from the field values, with 0 in `RSV0` and `RSV1`. -/
def packDescriptor (mode : Nat) (x y : Int) (bitmap mask frame maskFrame : Nat) : Descriptor where
  cmd0 := 0#8 ++ BitVec.ofNat 8 maskFrame ++ BitVec.ofNat 8 frame ++ 0#5 ++ BitVec.ofNat 3 mode
  cmd1 := BitVec.ofInt 16 y ++ BitVec.ofInt 16 x
  cmd2 := BitVec.ofNat 32 bitmap
  cmd3 := BitVec.ofNat 32 mask

/-- The canonical encoding (R44): "writing 0 into every ignored and reserved field". In a `drawAuto` with a null mask
`MASK_FRAME` is ignored too (R42), so its operand is not written. -/
def encode : Instr → Descriptor
  | .drawOverwrite x y bitmap frame => packDescriptor 0 x y bitmap 0 frame 0
  | .drawSelfMasked x y bitmap frame => packDescriptor 1 x y bitmap 0 frame 0
  | .drawErase x y bitmap frame => packDescriptor 2 x y bitmap 0 frame 0
  | .drawExternalMask x y bitmap mask frame maskFrame => packDescriptor 3 x y bitmap mask frame maskFrame
  | .drawPlusMask x y bitmap frame => packDescriptor 4 x y bitmap 0 frame 0
  | .drawAuto x y bitmap mask frame maskFrame =>
      packDescriptor 5 x y bitmap mask frame (if mask = 0 then 0 else maskFrame)

/-- `D` as one 128-bit value, `CMD0` in bits 31:0 (R36). -/
def Descriptor.toBits (d : Descriptor) : BitVec 128 := d.cmd3 ++ d.cmd2 ++ d.cmd1 ++ d.cmd0

/-- The register words of a 128-bit value (R36). -/
def descriptorOfBits (b : BitVec 128) : Descriptor where
  cmd0 := b.extractLsb' 0 32
  cmd1 := b.extractLsb' 32 32
  cmd2 := b.extractLsb' 64 32
  cmd3 := b.extractLsb' 96 32

/-- The descriptor whose lowest `nbits` bits are `w`'s, every bit above them 0. -/
def descriptorOfTableWord (nbits w : Nat) : Descriptor := descriptorOfBits (BitVec.ofNat 128 (w % 2 ^ nbits))

/-- The command the decoder reads from a table word (bit 0 the least significant bit of `CMD0`), none where it refuses. -/
def decodeTableWord (nbits w : Nat) : Option Instr :=
  match decode (descriptorOfTableWord nbits w) with
  | .command i => some i
  | .illegal _ => none

end Sys2Proof
end

