-- ==== Sys2Proof/Config.lean ====
section
/-! DEFINITION. What is fixed for the life of one sprite_blitter: its geometry and the size of its asset memory. -/

namespace Sys2Proof

/-- The implementation parameters of spec/00_scope.md section 4 (R6, R7; `ASSET_SIZE` is OPEN by D8).
The spec makes them arguments of the model, so State carries them, no step changes them, and statements range over
all of them (log entry 1). -/
structure Params where
  /-- `WIDTH`, framebuffer columns. -/
  width : Nat
  /-- `HEIGHT`, framebuffer pixel rows; need not be a multiple of 8. -/
  height : Nat
  /-- `ASSET_SIZE`, bytes of asset memory. -/
  assetSize : Nat
deriving DecidableEq, Repr

/-- The constraints of spec/00_scope.md section 4: `WIDTH >= 1`, `HEIGHT >= 1`, `2 <= ASSET_SIZE <= 2^32`. -/
def Params.wf (p : Params) : Bool :=
  decide (1 ≤ p.width) && decide (1 ≤ p.height) && decide (2 ≤ p.assetSize) && decide (p.assetSize ≤ 2 ^ 32)

/-- The reference screen of the spec, 80 by 160 (R6, D7). DESIGN CHOICE (log entry 1), unsafe: `ASSET_SIZE` is OPEN
in the spec; the model's reset state has every byte a 32-bit pointer can name. -/
def Params.reference : Params := { width := 80, height := 160, assetSize := 2 ^ 32 }

end Sys2Proof
end

