-- ==== Sys2Proof/Machine/State.lean ====
section
/-! DEFINITION. The state of sprite_blitter as plain data, its reset, and the reasons a step can stop. -/

namespace Sys2Proof.Machine

/-- A byte memory: (address, byte) pairs with addresses strictly rising and no byte equal to what an unlisted address
reads as (`Memory.wf` in Machine/Ops.lean). The framebuffer and asset memory are two of them, two address spaces that
do not overlap (spec/20_memory.md R20). -/
abbrev Memory := List Host.Cell

/-- The width of a host access to the register space (spec/10_state.md R15). -/
inductive AccessWidth where
  | byte
  | half
  | word
deriving DecidableEq, Repr

/-- One move of an agent outside the block (spec/70_reset_and_hazards.md R103: "A run is a finite sequence of host
actions"; log entry 3). -/
inductive Action where
  /-- The host writes `value` at a byte offset of the register space (spec/10_state.md section 4.1). -/
  | write (offset : Nat) (width : AccessWidth) (value : Word)
  /-- The host reads at a byte offset of the register space. -/
  | read (offset : Nat) (width : AccessWidth)
  /-- The display driver reads the whole framebuffer (spec/20_memory.md R30). -/
  | flush
  /-- The one reset of spec/70_reset_and_hazards.md R96. -/
  | reset
  /-- The platform stores one byte of asset memory, between commands (spec/20_memory.md R20, R35). -/
  | storeAsset (address : Nat) (value : Byte)
deriving DecidableEq, Repr

/-- What the last register read or flush returned (log entry 4). -/
inductive Response where
  /-- Nothing has been read since the run began. -/
  | nothing
  /-- The value of a register read. -/
  | word (value : Word)
  /-- The copy of the framebuffer that a flush returned, byte at index 0 first. -/
  | frame (bytes : List Byte)
deriving DecidableEq, Repr

/-- The fault codes of spec/60_exceptions.md R83. A command that ends in one of them does not stop the machine: it
latches the code in `STATUS` (R84) and the step answers a next state. -/
inductive FaultCode where
  /-- Code 1: an illegal descriptor (spec/30_encoding.md R41). -/
  | illegalCmd
  /-- Code 2: an asset read at or beyond `ASSET_SIZE` (spec/60_exceptions.md R82). -/
  | assetRange
  /-- Code 3: header byte `w = 0` or `h = 0` (spec/40_common_pipeline.md R51). -/
  | badHeader
  /-- Code 4: `ExternalMask` with a null mask (spec/42_masked_family.md R74). -/
  | nullMask
deriving DecidableEq, Repr

structure State where
  /-- `WIDTH`, `HEIGHT`, `ASSET_SIZE`: inputs of every step (spec/10_state.md section 1), never changed. -/
  params : Params
  /-- `FB` (spec/10_state.md R10), by linear index. -/
  fb : Memory
  /-- Asset memory (spec/10_state.md R11): an input of every command, read-only to the blitter. -/
  assets : Memory
  /-- `CMD0` to `CMD3` (spec/10_state.md R12). -/
  cmd : Descriptor
  /-- `STATUS` (spec/10_state.md R13): `FAULT` is bit 0, `CAUSE` bits 3:1, bits 31:4 are reserved. -/
  status : Word
  /-- The model's own: the actions of the agents outside the block that are still to come (log entry 3). -/
  host : List Action
  /-- The model's own: what the last read or flush returned (log entry 4). -/
  response : Response
deriving DecidableEq, Repr

/-- Reasons to stop with a fault. No draw command raises one. -/
inductive Fault where
  /-- Raised by `Action.storeAsset` at an address at or beyond `ASSET_SIZE`: the byte does not exist
  (spec/10_state.md R11). Safe: the model stops where the spec gives the platform no such byte (log entry 9). -/
  | noSuchAssetByte
deriving DecidableEq, Repr

/-- Reasons to refuse. No draw command raises one. -/
inductive Refusal where
  /-- An instruction without a meaning. No arm of `exec` uses it: every command of the table has its meaning. Safe. -/
  | notModelled (mnemonic : String)
  /-- A register access narrower than 32 bits (spec/10_state.md R15: "a model refuses them"). Safe (log entry 8). -/
  | narrowAccess
  /-- A 32-bit register access at an offset that is not a multiple of 4 (R15). Safe (log entry 8). -/
  | misalignedAccess
  /-- An aligned 32-bit access at an offset other than the six of the register map (R15). Safe (log entry 8). -/
  | unmappedRegister
deriving DecidableEq, Repr

/-- The machine right after reset (spec/10_state.md R19, spec/70_reset_and_hazards.md R96): every framebuffer byte 0x00
(nothing listed), `CMD0..CMD3 = 0`, `STATUS = 0`. Asset memory is not reset by the block: nothing is loaded yet (log
entry 2, DESIGN CHOICE, unsafe). No action is pending and nothing has been read (log entries 3 and 4). -/
def State.reset : State where
  params := Params.reference
  fb := []
  assets := []
  cmd := { cmd0 := 0, cmd1 := 0, cmd2 := 0, cmd3 := 0 }
  status := 0
  host := []
  response := .nothing

end Sys2Proof.Machine
end

