-- ==== Sys2Proof/Machine/Flags.lean ====
section
/-! DEFINITION. The fields of `STATUS` and how a fault code is latched. The block has no other flag
(spec/10_state.md R16: no carry, zero, sign or overflow flags, no predicates). -/

namespace Sys2Proof.Machine

/-- The codes of spec/60_exceptions.md R83. -/
def FaultCode.code : FaultCode → BitVec 3
  | .illegalCmd => 1
  | .assetRange => 2
  | .badHeader => 3
  | .nullMask => 4

/-- `STATUS.FAULT`, bit 0 (spec/10_state.md R13). -/
def statusFault (v : Word) : Bool := v.getLsbD 0

/-- `STATUS.CAUSE`, bits 3:1 (R13). -/
def statusCause (v : Word) : BitVec 3 := v.extractLsb' 1 3

/-- The reserved bits 31:4 of `STATUS` (R13: "read as 0"). -/
def statusReserved (v : Word) : BitVec 28 := v.extractLsb' 4 28

/-- The effect of a fault on `STATUS` (spec/60_exceptions.md R84): the first code is kept. -/
def latch (code : FaultCode) (v : Word) : Word :=
  if statusFault v then v else statusReserved v ++ code.code ++ 1#1

end Sys2Proof.Machine
end

