-- ==== Sys2Proof/Machine/Ops.lean ====
section
/-! DEFINITION. The named operations over the state: geometry, byte memories, field updates, and the one way a command
faults (spec/60_exceptions.md R84). -/

namespace Sys2Proof

/-- `NPAGES = ceil(HEIGHT/8)` (spec/00_scope.md R7). -/
def Params.npages (p : Params) : Nat := (p.height + 7) / 8

/-- `LASTPAGE = NPAGES - 1` (R7), an integer so that nothing is cut off at 0. -/
def Params.lastPage (p : Params) : Int := (p.npages : Int) - 1

/-- `FBSIZE = WIDTH * NPAGES` (R7). -/
def Params.fbSize (p : Params) : Nat := p.width * p.npages

namespace Machine

/-- What a byte that is not listed reads as. For the framebuffer it is the reset value (spec/10_state.md R19, D10). For
asset memory, whose content is an input of the model (R11), it is a DESIGN CHOICE (log entry 2), unsafe for a claim about
a run from `State.reset` and for no other. -/
def unlisted : Byte := 0

/-- The byte at an address. -/
def Memory.read : Memory → Nat → Byte
  | [], _ => unlisted
  | (k, b) :: rest, a => if k = a then b else Memory.read rest a

/-- Store one byte, keeping the canonical form. -/
def Memory.write : Memory → Nat → Byte → Memory
  | [], a, v => if v = unlisted then [] else [(a, v)]
  | (k, b) :: rest, a, v =>
    if a < k then (if v = unlisted then (k, b) :: rest else (a, v) :: (k, b) :: rest)
    else if a = k then (if v = unlisted then rest else (a, v) :: rest)
    else (k, b) :: Memory.write rest a v

/-- The canonical form from address `lo` on: addresses strictly rising, no entry equal to the unlisted byte. -/
def Memory.wfFrom : Nat → Memory → Bool
  | _, [] => true
  | lo, (k, b) :: rest => decide (lo ≤ k) && decide (b ≠ unlisted) && Memory.wfFrom (k + 1) rest

/-- The canonical form. -/
def Memory.wf (m : Memory) : Bool := Memory.wfFrom 0 m

/-- Every listed address is below `n`. -/
def Memory.below (n : Nat) (m : Memory) : Bool := m.all fun c => decide (c.1 < n)

/-- Read one byte, merge, write it back at the same index (spec/20_memory.md R29). -/
def Memory.update (m : Memory) (i : Nat) (f : Byte → Byte) : Memory := m.write i (f (m.read i))

/-- The bytes `0 .. n-1`, in order. -/
def Memory.bytes (m : Memory) (n : Nat) : List Byte := (List.range n).map m.read

def State.setFb (s : State) (m : Memory) : State := { s with fb := m }
def State.setAssets (s : State) (m : Memory) : State := { s with assets := m }
def State.setCmd (s : State) (d : Descriptor) : State := { s with cmd := d }
def State.setStatus (s : State) (v : Word) : State := { s with status := v }
def State.setHost (s : State) (l : List Action) : State := { s with host := l }
def State.setResponse (s : State) (r : Response) : State := { s with response := r }

/-- `raise Fault(code)` (spec/60_exceptions.md R84, R87): `STATUS` latches the code, nothing else changes, and the block
goes on (R88). There is no trap: nothing is saved and no control is transferred. -/
def raiseFault (code : FaultCode) (s : State) : State := s.setStatus (latch code s.status)

/-- The reset of spec/70_reset_and_hazards.md R96: the state of R19 takes its reset values; asset memory and the
parameters are not touched, and neither is the model's record of the agents outside (log entry 10). -/
def resetBlock (s : State) : State :=
  { s with fb := State.reset.fb, cmd := State.reset.cmd, status := State.reset.status }

end Machine
end Sys2Proof
end

