-- ==== Sys2Proof/Machine/Operands.lean ====
section
/-! DEFINITION. The common draw pipeline of spec/40_common_pipeline.md: header, mode resolution, frame selection, early
exit, clipping, range check, the byte operands of a cell, the merge operators, and the draw itself. -/

namespace Sys2Proof.Machine

/-- The Draw Mode of a command (spec/30_encoding.md R37). -/
inductive DrawMode where
  | unmasked
  | selfMasked
  | erase
  | externalMask
  | combinedMask
  | auto
deriving DecidableEq, Repr

/-- The five concrete modes: what is left after `Auto` is resolved (spec/40_common_pipeline.md R66). -/
inductive MergeMode where
  | unmasked
  | selfMasked
  | erase
  | externalMask
  | combinedMask
deriving DecidableEq, Repr

/-- The operands of one draw (spec/40_common_pipeline.md, opening paragraphs). -/
structure Request where
  mode : DrawMode
  x : Int
  y : Int
  bptr : Nat
  frame : Nat
  mptr : Nat
  maskFrame : Nat
deriving DecidableEq, Repr

/-- The asset header (R51): width and height in pixels. -/
structure Header where
  w : Nat
  h : Nat
deriving DecidableEq, Repr

/-- The clip parameters of R57, R58, R59. -/
structure Clip where
  xOffset : Nat
  renderedWidth : Nat
  startPage : Int
  yOffset : Nat
  startSkipRows : Nat
  endRows : Nat
deriving DecidableEq, Repr

/-- A draw that has passed stages 1 to 9 of R50: all that stage 10 needs beside the two memories. -/
structure Plan where
  mode : MergeMode
  x : Int
  w : Nat
  imgBase : Nat
  maskBase : Nat
  clip : Clip
deriving DecidableEq, Repr

/-- How stages 2 to 9 of R50 end. -/
inductive Verdict where
  | skipped
  | fault (code : FaultCode)
  | draw (plan : Plan)
deriving DecidableEq, Repr

/-! ### Stage 3: the header (R51) -/

/-- `P = ceil(h/8)`, the page-rows of the sprite. -/
def pageRows (h : Nat) : Nat := (h + 7) / 8

/-- Read `w` and `h` at `bptr`, `bptr + 1` (R51). -/
def readHeader (p : Params) (assets : Memory) (bptr : Nat) : Except FaultCode Header :=
  if p.assetSize ≤ bptr + 1 then .error .assetRange
  else if (assets.read bptr).toNat = 0 ∨ (assets.read (bptr + 1)).toNat = 0 then .error .badHeader
  else .ok { w := (assets.read bptr).toNat, h := (assets.read (bptr + 1)).toNat }

/-! ### Stage 4: mode resolution (R66) -/

/-- `Auto` becomes `ExternalMask` if a mask reference is supplied, else `Unmasked`. -/
def resolveMode (mode : DrawMode) (mptr : Nat) : MergeMode :=
  match mode with
  | .unmasked => .unmasked
  | .selfMasked => .selfMasked
  | .erase => .erase
  | .externalMask => .externalMask
  | .combinedMask => .combinedMask
  | .auto => if mptr = 0 then .unmasked else .externalMask

/-! ### Stage 5: frame selection (R53, R54, R55) -/

/-- Bytes of one frame of the bitmap asset (R53). -/
def frameOffset (mode : MergeMode) (w h : Nat) : Nat :=
  match mode with
  | .combinedMask => 2 * w * pageRows h
  | .unmasked | .selfMasked | .erase | .externalMask => w * pageRows h

/-- Address of the first byte of the selected bitmap frame (R54). -/
def imgBase (mode : MergeMode) (bptr frame w h : Nat) : Nat := bptr + 2 + frame * frameOffset mode w h

/-- Address of the first byte of the selected frame of a separate mask asset (R55); used by `ExternalMask` only. -/
def maskBase (mptr maskFrame w h : Nat) : Nat := mptr + maskFrame * (w * pageRows h)

/-! ### Stage 6: early exit (R56) -/

/-- "The sprite lies entirely outside `[0, WIDTH) × [0, HEIGHT)`", by the pixel sizes `w`, `h` and `HEIGHT` (R56, D23). -/
def offScreen (p : Params) (x y : Int) (w h : Nat) : Bool :=
  decide (x + w ≤ 0) || decide ((p.width : Int) ≤ x) || decide (y + h ≤ 0) || decide ((p.height : Int) ≤ y)

/-! ### Stage 7: the mask check (spec/42_masked_family.md R74) -/

/-- The resolved mode needs a mask asset and none is supplied. -/
def maskMissing (mode : MergeMode) (mptr : Nat) : Bool := decide (mode = .externalMask) && decide (mptr = 0)

/-! ### Stage 8: clipping (R57, R58, R59) -/

/-- Sprite columns skipped at the left (R57). -/
def xOffset (x : Int) : Nat := if x < 0 then (-x).toNat else 0

/-- Sprite columns drawn (R57). -/
def renderedWidth (p : Params) (x : Int) (w : Nat) : Nat :=
  if (p.width : Int) < x + w then ((p.width : Int) - x - xOffset x).toNat else w - xOffset x

/-- `floor(y/8)` (R58; spec/90_conflicts.md C8): Lean's `/` on integers is the floor for a positive divisor. -/
def startPage (y : Int) : Int := y / 8

/-- `y mod 8`, the mathematical modulo, in `0 .. 7` (R58). -/
def yOffset (y : Int) : Nat := (y % 8).toNat

/-- Sprite page-rows skipped at the top (R59). -/
def startSkipRows (y : Int) : Nat := if startPage y < -1 then (-startPage y - 1).toNat else 0

/-- One past the last sprite page-row drawn (R59, D22). -/
def endRows (p : Params) (y : Int) (h : Nat) : Nat := (min (pageRows h : Int) ((p.npages : Int) - startPage y)).toNat

/-- All the clip parameters. They are used only after the early exit has not fired, where none is negative (R57, R59). -/
def clip (p : Params) (x y : Int) (w h : Nat) : Clip where
  xOffset := xOffset x
  renderedWidth := renderedWidth p x w
  startPage := startPage y
  yOffset := yOffset y
  startSkipRows := startSkipRows y
  endRows := endRows p y h

/-! ### Stage 10, the operands of a cell (R61) -/

/-- Place of the image byte in a combined cell. PRESUMED (log entry 12; spec/92_eei_decisions.md D11, G1): first. -/
def combinedImageSlot : Nat := 0

/-- Place of the mask byte in a combined cell. PRESUMED (log entry 12): second. -/
def combinedMaskSlot : Nat := 1

/-- Address of the image byte of cell `(pr, c)` (R61; spec/20_memory.md R24, R25). -/
def imageAddress (mode : MergeMode) (base w pr c : Nat) : Nat :=
  match mode with
  | .combinedMask => base + 2 * (c + pr * w) + combinedImageSlot
  | .unmasked | .selfMasked | .erase | .externalMask => base + (c + pr * w)

/-- The image byte of a cell. -/
def imageByte (pl : Plan) (assets : Memory) (pr c : Nat) : Byte :=
  assets.read (imageAddress pl.mode pl.imgBase pl.w pr c)

/-- The mask byte of a cell (R61): the constant 0xFF in `Unmasked`; `SelfMasked` and `Erase` have none, and their merge
operators do not look at the placeholder given here (log entry 17). -/
def maskByte (pl : Plan) (assets : Memory) (pr c : Nat) : Byte :=
  match pl.mode with
  | .unmasked => 0xFF
  | .selfMasked => 0
  | .erase => 0
  | .externalMask => assets.read (pl.maskBase + (c + pr * pl.w))
  | .combinedMask => assets.read (pl.imgBase + 2 * (c + pr * pl.w) + combinedMaskSlot)

/-! ### Stage 9: the range check (spec/60_exceptions.md R82) -/

/-- Column of the last processed cell, `cL` (R82). -/
def Clip.lastColumn (g : Clip) : Nat := g.xOffset + g.renderedWidth - 1

/-- Page-row of the last processed cell, `pL` (R82). -/
def Clip.lastRow (g : Clip) : Nat := g.endRows - 1

/-- `img_max` (R82): the largest asset address the draw reads through the bitmap reference. -/
def imgMax (pl : Plan) : Nat :=
  match pl.mode with
  | .combinedMask => pl.imgBase + 2 * (pl.clip.lastColumn + pl.clip.lastRow * pl.w) + 1
  | .unmasked | .selfMasked | .erase | .externalMask => pl.imgBase + (pl.clip.lastColumn + pl.clip.lastRow * pl.w)

/-- `mask_max` (R82): the largest asset address the draw reads through the mask reference, in `ExternalMask`. -/
def maskMax (pl : Plan) : Nat := pl.maskBase + (pl.clip.lastColumn + pl.clip.lastRow * pl.w)

/-- Some cell of the draw lies at or beyond `ASSET_SIZE` (R82). -/
def outOfRange (p : Params) (pl : Plan) : Bool :=
  decide (p.assetSize ≤ imgMax pl) || (decide (pl.mode = .externalMask) && decide (p.assetSize ≤ maskMax pl))

/-! ### Stages 2 to 9 together (R50, spec/60_exceptions.md R85) -/

/-- What stage 10 is given once stages 4, 5 and 8 are done. -/
def planOf (p : Params) (r : Request) (hd : Header) : Plan where
  mode := resolveMode r.mode r.mptr
  x := r.x
  w := hd.w
  imgBase := imgBase (resolveMode r.mode r.mptr) r.bptr r.frame hd.w hd.h
  maskBase := maskBase r.mptr r.maskFrame hd.w hd.h
  clip := clip p r.x r.y hd.w hd.h

/-- The stages of R50 after the decode, in their order; the first that ends the command decides (R85). It reads the
parameters, asset memory and the operands, never the framebuffer (R48). -/
def verdict (p : Params) (assets : Memory) (r : Request) : Verdict :=
  if r.bptr = 0 then .skipped
  else match readHeader p assets r.bptr with
    | .error code => .fault code
    | .ok hd =>
      if offScreen p r.x r.y hd.w hd.h then .skipped
      else if maskMissing (resolveMode r.mode r.mptr) r.mptr then .fault .nullMask
      else if outOfRange p (planOf p r hd) then .fault .assetRange
      else .draw (planOf p r hd)

/-! ### Stage 10: shift, split, merge (R62, R63, R64; spec/41_unmasked_family.md R68, spec/42_masked_family.md R73) -/

/-- `byte << yOffset` in the 16-bit accumulator (R62). -/
def shifted (b : Byte) (n : Nat) : Half := (b.setWidth 16) <<< n

/-- `lo8` (spec/00_scope.md section 5.1): the bits that land in the current page-row. -/
def lo8 (v : Half) : Byte := v.extractLsb' 0 8

/-- `hi8`: the bits that spill into the page-row below. -/
def hi8 (v : Half) : Byte := v.extractLsb' 8 8

/-- `merge_mode(old, sB, kB)` (R68, R73). -/
def merge (mode : MergeMode) (old sB kB : Byte) : Byte :=
  match mode with
  | .unmasked => (old &&& ~~~kB) ||| sB
  | .selfMasked => old ||| sB
  | .erase => old &&& ~~~sB
  | .externalMask => (old &&& ~~~kB) ||| sB
  | .combinedMask => (old &&& ~~~kB) ||| sB

/-- Linear index of the framebuffer byte of page-row `page`, column `col` (spec/20_memory.md R21). -/
def fbIndex (p : Params) (page col : Int) : Nat := (page * p.width + col).toNat

/-- R63: the low byte is merged if its page-row is not above the framebuffer. -/
def mergeLow (p : Params) (assets : Memory) (pl : Plan) (pr c : Nat) (fb : Memory) : Memory :=
  if 0 ≤ pl.clip.startPage + pr then
    fb.update (fbIndex p (pl.clip.startPage + pr) (pl.x + c)) fun old =>
      merge pl.mode old (lo8 (shifted (imageByte pl assets pr c) pl.clip.yOffset))
        (lo8 (shifted (maskByte pl assets pr c) pl.clip.yOffset))
  else fb

/-- R64: the high byte is merged one page-row below, if there is spillover and a page-row to take it. -/
def mergeHigh (p : Params) (assets : Memory) (pl : Plan) (pr c : Nat) (fb : Memory) : Memory :=
  if pl.clip.yOffset ≠ 0 ∧ pl.clip.startPage + pr < p.lastPage then
    fb.update (fbIndex p (pl.clip.startPage + pr + 1) (pl.x + c)) fun old =>
      merge pl.mode old (hi8 (shifted (imageByte pl assets pr c) pl.clip.yOffset))
        (hi8 (shifted (maskByte pl assets pr c) pl.clip.yOffset))
  else fb

/-- One cell `(pr, c)`: low, then high (R65). -/
def drawCell (p : Params) (assets : Memory) (pl : Plan) (fb : Memory) (cell : Nat × Nat) : Memory :=
  mergeHigh p assets pl cell.1 cell.2 (mergeLow p assets pl cell.1 cell.2 fb)

/-- The cells of the draw in traversal order, column-fastest, then page-row (R60, R65). -/
def cells (g : Clip) : List (Nat × Nat) :=
  (List.range' g.startSkipRows (g.endRows - g.startSkipRows)).flatMap fun pr =>
    (List.range' g.xOffset g.renderedWidth).map fun c => (pr, c)

/-- Stage 10 (R65). -/
def compose (p : Params) (assets : Memory) (pl : Plan) (fb : Memory) : Memory :=
  (cells pl.clip).foldl (drawCell p assets pl) fb

/-- A draw command once decoded: one atomic transition (spec/20_memory.md R32) that ends `Skipped` (nothing changes,
spec/60_exceptions.md R80), `Fault(code)` (R84) or `Done` (stage 10). -/
def draw (r : Request) (s : State) : Host.Outcome State Fault Refusal :=
  match verdict s.params s.assets r with
  | .skipped => .next s
  | .fault code => .next (raiseFault code s)
  | .draw pl => .next (s.setFb (compose s.params s.assets pl s.fb))

end Sys2Proof.Machine
end

