-- ==== Sys2Proof/Machine/Masked.lean ====
section
/-! DEFINITION. The commands with a mask (spec/42_masked_family.md): drawExternalMask, drawPlusMask, drawAuto. -/

namespace Sys2Proof.Machine

/-- `drawExternalMask x, y, bitmap, mask, frame, maskFrame` (R74): mask bytes from a headerless mask asset. -/
def execDrawExternalMask (x y : Int) (bitmap mask frame maskFrame : Nat) (s : State) :
    Host.Outcome State Fault Refusal :=
  draw { mode := .externalMask, x := x, y := y, bptr := bitmap, frame := frame, mptr := mask, maskFrame := maskFrame } s

/-- `drawPlusMask x, y, bitmap, frame` (R75): image and mask bytes interleaved in one asset. -/
def execDrawPlusMask (x y : Int) (bitmap frame : Nat) (s : State) : Host.Outcome State Fault Refusal :=
  draw { mode := .combinedMask, x := x, y := y, bptr := bitmap, frame := frame, mptr := 0, maskFrame := 0 } s

/-- `drawAuto x, y, bitmap, mask, frame, maskFrame` (R76): resolved by whether a mask reference is supplied. -/
def execDrawAuto (x y : Int) (bitmap mask frame maskFrame : Nat) (s : State) : Host.Outcome State Fault Refusal :=
  draw { mode := .auto, x := x, y := y, bptr := bitmap, frame := frame, mptr := mask, maskFrame := maskFrame } s

end Sys2Proof.Machine
end

