-- ==== Sys2Proof/Machine/Unmasked.lean ====
section
/-! DEFINITION. The commands without a mask asset (spec/41_unmasked_family.md): drawOverwrite, drawSelfMasked, drawErase. -/

namespace Sys2Proof.Machine

/-- `drawOverwrite x, y, bitmap, frame` (R69): opaque overwrite, `Unmasked`. -/
def execDrawOverwrite (x y : Int) (bitmap frame : Nat) (s : State) : Host.Outcome State Fault Refusal :=
  draw { mode := .unmasked, x := x, y := y, bptr := bitmap, frame := frame, mptr := 0, maskFrame := 0 } s

/-- `drawSelfMasked x, y, bitmap, frame` (R70): the set bits are ORed in, `SelfMasked`. -/
def execDrawSelfMasked (x y : Int) (bitmap frame : Nat) (s : State) : Host.Outcome State Fault Refusal :=
  draw { mode := .selfMasked, x := x, y := y, bptr := bitmap, frame := frame, mptr := 0, maskFrame := 0 } s

/-- `drawErase x, y, bitmap, frame` (R71): the set bits are cleared, `Erase`. -/
def execDrawErase (x y : Int) (bitmap frame : Nat) (s : State) : Host.Outcome State Fault Refusal :=
  draw { mode := .erase, x := x, y := y, bptr := bitmap, frame := frame, mptr := 0, maskFrame := 0 } s

end Sys2Proof.Machine
end

