-- ==== Sys2Proof/Machine/Dispatch.lean ====
section
/-! DEFINITION. One arm per constructor of Instr, each one call of that command's meaning. -/

namespace Sys2Proof.Machine

def exec (i : Instr) (s : State) : Host.Outcome State Fault Refusal :=
  match i with
  | .drawOverwrite x y bitmap frame => Sys2Proof.Machine.execDrawOverwrite x y bitmap frame s
  | .drawSelfMasked x y bitmap frame => Sys2Proof.Machine.execDrawSelfMasked x y bitmap frame s
  | .drawErase x y bitmap frame => Sys2Proof.Machine.execDrawErase x y bitmap frame s
  | .drawExternalMask x y bitmap mask frame maskFrame => Sys2Proof.Machine.execDrawExternalMask x y bitmap mask frame maskFrame s
  | .drawPlusMask x y bitmap frame => Sys2Proof.Machine.execDrawPlusMask x y bitmap frame s
  | .drawAuto x y bitmap mask frame maskFrame => Sys2Proof.Machine.execDrawAuto x y bitmap mask frame maskFrame s

end Sys2Proof.Machine
end

