-- ==== Sys2Proof/Machine/Port.lean ====
section
/-! DEFINITION. The command port: what each action of an agent outside the block does (register accesses, flush, reset,
platform stores to asset memory), and how a `GO` write issues a command. -/

namespace Sys2Proof.Machine

/-- The registers of spec/10_state.md section 4.1. `GO` has no storage (R18). -/
inductive Register where
  | cmd0
  | cmd1
  | cmd2
  | cmd3
  | go
  | status
deriving DecidableEq, Repr

/-- The register at a byte offset, none where there is none (spec/10_state.md section 4.1). -/
def registerAt : Nat → Option Register
  | 0x00 => some .cmd0
  | 0x04 => some .cmd1
  | 0x08 => some .cmd2
  | 0x0C => some .cmd3
  | 0x10 => some .go
  | 0x14 => some .status
  | _ => none

/-- The register an access names, or why the model refuses it (spec/10_state.md R15; log entry 8). -/
def selectRegister (offset : Nat) (width : AccessWidth) : Except Refusal Register :=
  match width with
  | .byte => .error .narrowAccess
  | .half => .error .narrowAccess
  | .word =>
    if offset % 4 ≠ 0 then .error .misalignedAccess
    else match registerAt offset with
      | some r => .ok r
      | none => .error .unmappedRegister

/-- What the machine does with an action: it is over at once, or it issues the command that stands in `CMD0..CMD3`. -/
inductive Accepted where
  | settled (o : Host.Outcome State Fault Refusal)
  | issue (s : State)

/-- A register read (spec/10_state.md R12, R13, R18): `GO` reads 0. Only the response changes. -/
def registerValue (r : Register) (s : State) : Word :=
  match r with
  | .cmd0 => s.cmd.cmd0
  | .cmd1 => s.cmd.cmd1
  | .cmd2 => s.cmd.cmd2
  | .cmd3 => s.cmd.cmd3
  | .go => 0
  | .status => s.status

/-- A register write: all 32 bits of a `CMD` register (R12); a write to `STATUS` is ignored (R13; log entry 7); a write
to `GO` issues the command, whatever the value (R18). -/
def writeRegister (r : Register) (v : Word) (s : State) : Accepted :=
  match r with
  | .cmd0 => .settled (.next (s.setCmd { s.cmd with cmd0 := v }))
  | .cmd1 => .settled (.next (s.setCmd { s.cmd with cmd1 := v }))
  | .cmd2 => .settled (.next (s.setCmd { s.cmd with cmd2 := v }))
  | .cmd3 => .settled (.next (s.setCmd { s.cmd with cmd3 := v }))
  | .go => .issue s
  | .status => .settled (.next s)

/-- Take one action. -/
def accept (a : Action) (s : State) : Accepted :=
  match a with
  | .write offset width v =>
    match selectRegister offset width with
    | .ok r => writeRegister r v s
    | .error why => .settled (.refused why)
  | .read offset width =>
    match selectRegister offset width with
    | .ok r => .settled (.next (s.setResponse (.word (registerValue r s))))
    | .error why => .settled (.refused why)
  | .flush => .settled (.next (s.setResponse (.frame (s.fb.bytes s.params.fbSize))))
  | .reset => .settled (.next (resetBlock s))
  | .storeAsset address v =>
    if address < s.params.assetSize then .settled (.next (s.setAssets (s.assets.write address v)))
    else .settled (.fault .noSuchAssetByte)

/-- With no action pending the block is idle, and "idle holds all state" (spec/60_exceptions.md R90; log entry 5). -/
def idle (s : State) : Host.Outcome State Fault Refusal := .next s

/-- The command a `GO` write issues: the descriptor in `CMD0..CMD3` at that moment, decoded
(spec/30_encoding.md R45). -/
def issued (s : State) : Decoded := decode s.cmd

/-- Issuing an illegal descriptor (spec/30_encoding.md R41): both kinds latch `ILLEGAL_CMD`. -/
def rejectDescriptor (e : DecodeError) (s : State) : Host.Outcome State Fault Refusal :=
  match e with
  | .reservedBits => .next (raiseFault .illegalCmd s)
  | .reservedMode => .next (raiseFault .illegalCmd s)

/-- The write to `GO` (spec/10_state.md R18); "the value written is ignored". -/
def goWrite : Action := .write 0x10 .word 0

/-- The five register writes an assembler emits for a descriptor: `CMD0`, `CMD1`, `CMD2`, `CMD3`, `GO`
(spec/30_encoding.md R44, D24). -/
def issueWrites (d : Descriptor) : List Action :=
  [.write 0x00 .word d.cmd0, .write 0x04 .word d.cmd1, .write 0x08 .word d.cmd2, .write 0x0C .word d.cmd3, goWrite]

/-- Put a descriptor where the next `GO` write finds it, and that `GO` write at the head of the pending actions. -/
def placeCommand (d : Descriptor) (s : State) : State := (s.setCmd d).setHost (goWrite :: s.host)

end Sys2Proof.Machine
end

