-- ==== Sys2Proof/Machine/Step.lean ====
section
/-! DEFINITION. One step: the next pending action of the agents outside the block, taken whole (spec/20_memory.md R32).
A `GO` write runs the decoded command to completion (spec/10_state.md R18). -/

namespace Sys2Proof.Machine

def step (s : State) : Host.Outcome State Fault Refusal :=
  match s.host with
  | [] => idle s
  | a :: rest =>
    match accept a (s.setHost rest) with
    | .settled o => o
    | .issue t =>
      match issued t with
      | .command i => exec i t
      | .illegal e => rejectDescriptor e t

/-- The state in which the very next step issues the descriptor with bits `w` (log entry 3). -/
def State.withFetchWord (s : State) (nbits w : Nat) : State := placeCommand (descriptorOfTableWord nbits w) s

end Sys2Proof.Machine
end

