-- ==== Sys2Proof/Safety.lean ====
section
/-! DEFINITION. The terms in which claims are stated: the legal states, the picture in the framebuffer, and what a draw
must show, written from the spec's layout and per-pixel rules and not from the traversal. -/

namespace Sys2Proof

/-- `sext_16` (spec/00_scope.md section 5.1). -/
def sext16 (v : Nat) : Int := if v < 32768 then v else (v : Int) - 65536

namespace Machine

/-- What `STATUS` may hold (spec/10_state.md R13, spec/60_exceptions.md R83): reserved bits 0, `CAUSE` 0 while
`FAULT = 0`, a code 1 to 4 once `FAULT = 1`. -/
def statusLegal (v : Word) : Bool :=
  decide (statusReserved v = 0) &&
    if statusFault v then decide (1 ≤ (statusCause v).toNat) && decide ((statusCause v).toNat ≤ 4)
    else decide (statusCause v = 0)

/-- The legal states: the parameters meet their constraints, both memories are canonical and inside their address
spaces, `STATUS` is legal. Kept by every step. -/
abbrev State.Inv (s : State) : Prop :=
  s.params.wf = true ∧ s.fb.wf = true ∧ s.fb.below s.params.fbSize = true ∧
    s.assets.wf = true ∧ s.assets.below s.params.assetSize = true ∧ statusLegal s.status = true

/-- The operands of the draw a command asks for; a command without a mask supplies a null one. -/
def requestOf : Instr → Request
  | .drawOverwrite x y bitmap frame => ⟨.unmasked, x, y, bitmap, frame, 0, 0⟩
  | .drawSelfMasked x y bitmap frame => ⟨.selfMasked, x, y, bitmap, frame, 0, 0⟩
  | .drawErase x y bitmap frame => ⟨.erase, x, y, bitmap, frame, 0, 0⟩
  | .drawExternalMask x y bitmap mask frame maskFrame => ⟨.externalMask, x, y, bitmap, frame, mask, maskFrame⟩
  | .drawPlusMask x y bitmap frame => ⟨.combinedMask, x, y, bitmap, frame, 0, 0⟩
  | .drawAuto x y bitmap mask frame maskFrame => ⟨.auto, x, y, bitmap, frame, mask, maskFrame⟩

/-- How the stages before the traversal end for a command in a state (spec/60_exceptions.md R85). -/
def verdictOf (i : Instr) (s : State) : Verdict := verdict s.params s.assets (requestOf i)

/-- The asset at `bptr` has a readable header with width `w` and height `h`, both in 1 to 255 (spec/20_memory.md R23). -/
abbrev HeaderAt (p : Params) (assets : Memory) (bptr w h : Nat) : Prop :=
  bptr ≠ 0 ∧ bptr + 1 < p.assetSize ∧ (assets.read bptr).toNat = w ∧ (assets.read (bptr + 1)).toNat = h ∧ w ≠ 0 ∧ h ≠ 0

/-- The sprite lies entirely outside `[0, WIDTH) × [0, HEIGHT)` (spec/40_common_pipeline.md R56). -/
abbrev OffScreen (p : Params) (x y : Int) (w h : Nat) : Prop :=
  x + w ≤ 0 ∨ (p.width : Int) ≤ x ∨ y + h ≤ 0 ∨ (p.height : Int) ≤ y

/-- Pixel `(X, Y)` of the framebuffer (spec/20_memory.md R21): bit `Y mod 8` of `FB[floor(Y/8)*WIDTH + X]`. -/
def pixel (p : Params) (fb : Memory) (X Y : Nat) : Bool := (fb.read (Y / 8 * p.width + X)).getLsbD (Y % 8)

/-- Pixel `(X, Y)` lies in the sprite's page-granular rectangle: columns `x .. x+w-1`, rows `y .. y+8*P-1`
(spec/41_unmasked_family.md R69; spec/90_conflicts.md C1). -/
abbrev InSprite (x y : Int) (w h : Nat) (X Y : Nat) : Prop :=
  x ≤ X ∧ X < x + w ∧ y ≤ Y ∧ Y < y + 8 * (pageRows h : Int)

/-- Sprite pixel `(c, r)` of a plain frame, or of a mask frame, whose first byte is at `base`
(spec/20_memory.md R24, R26). -/
def plainBit (assets : Memory) (base w c r : Nat) : Bool := (assets.read (base + c + r / 8 * w)).getLsbD (r % 8)

/-- Image pixel `(c, r)` of a combined frame at `base`: the even byte of the cell (spec/20_memory.md R25). -/
def combinedImageBit (assets : Memory) (base w c r : Nat) : Bool :=
  (assets.read (base + 2 * (c + r / 8 * w))).getLsbD (r % 8)

/-- Mask pixel `(c, r)` of a combined frame at `base`: the odd byte of the cell (spec/20_memory.md R25). -/
def combinedMaskBit (assets : Memory) (base w c r : Nat) : Bool :=
  (assets.read (base + 2 * (c + r / 8 * w) + 1)).getLsbD (r % 8)

/-- What a completed draw leaves in the framebuffer (spec/40_common_pipeline.md R67): `new c r old` at every framebuffer
pixel inside the sprite, `(c, r)` its place in the sprite; every other pixel, and every byte outside the framebuffer, as
before. -/
def Drawn (p : Params) (before after : Memory) (x y : Int) (w h : Nat) (new : Nat → Nat → Bool → Bool) : Prop :=
  (∀ X Y : Nat, X < p.width → Y < 8 * p.npages →
    pixel p after X Y =
      if InSprite x y w h X Y then new (X - x).toNat (Y - y).toNat (pixel p before X Y) else pixel p before X Y) ∧
  ∀ j : Nat, p.fbSize ≤ j → after.read j = before.read j

/-- Offset, in cells, of the last cell the draw processes: `cL + pL*w` (spec/60_exceptions.md R82). -/
def lastCell (p : Params) (x y : Int) (w h : Nat) : Nat :=
  (clip p x y w h).lastColumn + (clip p x y w h).lastRow * w

/-- The framebuffer indices one cell stores to: that of its low byte (R63) and that of its high byte (R64), each under
the condition the spec puts on it. -/
def cellStoresTo (p : Params) (pl : Plan) (cell : Nat × Nat) (j : Nat) : Prop :=
  (0 ≤ pl.clip.startPage + cell.1 ∧ j = fbIndex p (pl.clip.startPage + cell.1) (pl.x + cell.2)) ∨
    (pl.clip.yOffset ≠ 0 ∧ pl.clip.startPage + cell.1 < p.lastPage ∧
      j = fbIndex p (pl.clip.startPage + cell.1 + 1) (pl.x + cell.2))

/-- The asset addresses one cell reads (spec/40_common_pipeline.md R49): its image byte, and its mask byte in the two
modes that read one from memory. -/
def cellReads (pl : Plan) (cell : Nat × Nat) (a : Nat) : Prop :=
  a = imageAddress pl.mode pl.imgBase pl.w cell.1 cell.2 ∨
    (pl.mode = .externalMask ∧ a = pl.maskBase + (cell.2 + cell.1 * pl.w)) ∨
    (pl.mode = .combinedMask ∧ a = pl.imgBase + 2 * (cell.2 + cell.1 * pl.w) + 1)

/-- The framebuffer indices a command stores to: those of its cells if it is drawn, none if it is skipped or faults. -/
def storesTo (i : Instr) (s : State) (j : Nat) : Prop :=
  match verdictOf i s with
  | .skipped => False
  | .fault _ => False
  | .draw pl => ∃ cell ∈ cells pl.clip, cellStoresTo s.params pl cell j

end Machine
end Sys2Proof
end

