-- ==== Sys2Proof/Certificates/Slice0/Obligations.lean ====
section
/-! DEFINITION. The statements about sprite_blitter, for the provers. -/

open Sys2Proof Sys2Proof.Machine

/-! ### Encoding (spec/30_encoding.md) -/

/-- R44, R36: the canonical encoding of every well-formed command, every operand at every value its field admits, decodes
to that command; but R44 writes 0 into an ignored field, so the mask frame of a `drawAuto` with a null mask comes back
as 0. -/
def Obligations.DecodingAnEncodedCommandGivesItBack : Prop :=
  (∀ i : Instr, i.wellFormed = true → (∀ x y bitmap frame maskFrame, i = .drawAuto x y bitmap 0 frame maskFrame →
    maskFrame = 0) → decode (encode i) = .command i) ∧
  (∀ (x y : Int) (bitmap frame maskFrame : Nat), (Instr.drawAuto x y bitmap 0 frame maskFrame).wellFormed = true →
    decode (encode (.drawAuto x y bitmap 0 frame maskFrame)) = .command (.drawAuto x y bitmap 0 frame 0))

/-- R36 to R41 and the opcode map of section 4: which command a descriptor is, from `CMD0 & 0xFF0000FF`, and what each of
its fields reads; every other descriptor is illegal. -/
def Obligations.DecodeReadsEveryFieldOfTheDescriptor : Prop :=
  ∀ d : Descriptor,
    let key := d.cmd0 &&& 0xFF0000FF
    let x := sext16 (d.cmd1.toNat % 65536)
    let y := sext16 (d.cmd1.toNat / 65536)
    let bitmap := d.cmd2.toNat
    let mask := d.cmd3.toNat
    let frame := d.cmd0.toNat / 256 % 256
    let maskFrame := d.cmd0.toNat / 65536 % 256
    (key = 0 → decode d = .command (.drawOverwrite x y bitmap frame)) ∧
    (key = 1 → decode d = .command (.drawSelfMasked x y bitmap frame)) ∧
    (key = 2 → decode d = .command (.drawErase x y bitmap frame)) ∧
    (key = 3 → decode d = .command (.drawExternalMask x y bitmap mask frame maskFrame)) ∧
    (key = 4 → decode d = .command (.drawPlusMask x y bitmap frame)) ∧
    (key = 5 → decode d = .command (.drawAuto x y bitmap mask frame maskFrame)) ∧
    (5 < key.toNat → ∃ e, decode d = .illegal e)

/-- Words written out from the spec's encodings (section 6 of 30_encoding.md, section 2.4 of 95_test_vectors.md) decode
to the commands the spec gives for them. -/
def Obligations.WordsOfTheSpecDecodeToTheirCommands : Prop :=
  decode ⟨0x00010203, 0x0009FFFD, 0x00000100, 0x00000200⟩ = .command (.drawExternalMask (-3) 9 0x100 0x200 2 1) ∧
  decode ⟨0x00000104, 0x00040000, 0x0000002A, 0x00000000⟩ = .command (.drawPlusMask 0 4 0x2A 1) ∧
  decode ⟨0x00070005, 0x00030000, 0x00000008, 0x00000000⟩ = .command (.drawAuto 0 3 0x08 0 0 7) ∧
  decode ⟨0x00000000, 0x80008000, 0x00000010, 0x00000000⟩ = .command (.drawOverwrite (-32768) (-32768) 0x10 0) ∧
  decode ⟨0x00000001, 0x0014000A, 0x00000010, 0x00000000⟩ = .command (.drawSelfMasked 10 20 0x10 0) ∧
  decode ⟨0x00000002, 0x00030000, 0x00000008, 0x00000000⟩ = .command (.drawErase 0 3 0x08 0) ∧
  decode ⟨0x00000006, 0, 4, 0⟩ = .illegal .reservedMode ∧
  decode ⟨0x01000000, 0, 0, 0⟩ = .illegal .reservedBits

/-- R42: in modes 0, 1, 2 and 4 `MASK_PTR` and `MASK_FRAME` decode to nothing, whatever they hold; in `Auto` with a null
mask the mask frame has no effect. -/
def Obligations.IgnoredMaskFieldsHaveNoEffect : Prop :=
  (∀ (d : Descriptor) (maskFrame : Byte) (maskPtr : Word),
    (d.cmd0 &&& 7 = 0 ∨ d.cmd0 &&& 7 = 1 ∨ d.cmd0 &&& 7 = 2 ∨ d.cmd0 &&& 7 = 4) →
    decode { d with
      cmd0 := (d.cmd0 &&& 0xFF00FFFF) ||| (maskFrame.setWidth 32 <<< 16)
      cmd3 := maskPtr } = decode d) ∧
  (∀ (x y : Int) (bitmap frame maskFrame maskFrame' : Nat) (s : State),
    exec (.drawAuto x y bitmap 0 frame maskFrame) s = exec (.drawAuto x y bitmap 0 frame maskFrame') s)

/-- R36, R42, R44: what is decoded is well-formed, and encoding it again gives the descriptor back with 0 in the fields its
command ignores (`MASK_FRAME` of a `drawAuto` with a null mask among them): no bit of a used field is dropped or moved. -/
def Obligations.ReencodingClearsOnlyIgnoredFields : Prop :=
  ∀ (d : Descriptor) (i : Instr), decode d = .command i →
    i.wellFormed = true ∧
    encode i = match i with
      | .drawOverwrite _ _ _ _ => { d with cmd0 := d.cmd0 &&& 0xFF00FFFF, cmd3 := 0 }
      | .drawSelfMasked _ _ _ _ => { d with cmd0 := d.cmd0 &&& 0xFF00FFFF, cmd3 := 0 }
      | .drawErase _ _ _ _ => { d with cmd0 := d.cmd0 &&& 0xFF00FFFF, cmd3 := 0 }
      | .drawExternalMask _ _ _ _ _ _ => d
      | .drawPlusMask _ _ _ _ => { d with cmd0 := d.cmd0 &&& 0xFF00FFFF, cmd3 := 0 }
      | .drawAuto _ _ _ mask _ _ => if mask = 0 then { d with cmd0 := d.cmd0 &&& 0xFF00FFFF } else d

/-! ### Registers and the command port (spec/10_state.md) -/

/-- R12: a write stores all 32 bits of its `CMD` register and nothing else, a read returns what the register holds (in
`response`, log entry 4), they are 0 after reset, and no command changes them. -/
def Obligations.CmdRegistersReadBackAndSurviveCommands : Prop :=
  (∀ (s : State) (v : Word) (rest : List Action),
    (s.host = .write 0x00 .word v :: rest → step s = .next { s with host := rest, cmd := { s.cmd with cmd0 := v } }) ∧
    (s.host = .write 0x04 .word v :: rest → step s = .next { s with host := rest, cmd := { s.cmd with cmd1 := v } }) ∧
    (s.host = .write 0x08 .word v :: rest → step s = .next { s with host := rest, cmd := { s.cmd with cmd2 := v } }) ∧
    (s.host = .write 0x0C .word v :: rest → step s = .next { s with host := rest, cmd := { s.cmd with cmd3 := v } })) ∧
  (∀ (s : State) (rest : List Action),
    (s.host = .read 0x00 .word :: rest → step s = .next { s with host := rest, response := .word s.cmd.cmd0 }) ∧
    (s.host = .read 0x04 .word :: rest → step s = .next { s with host := rest, response := .word s.cmd.cmd1 }) ∧
    (s.host = .read 0x08 .word :: rest → step s = .next { s with host := rest, response := .word s.cmd.cmd2 }) ∧
    (s.host = .read 0x0C .word :: rest → step s = .next { s with host := rest, response := .word s.cmd.cmd3 })) ∧
  State.reset.cmd = ⟨0, 0, 0, 0⟩ ∧
  (∀ (i : Instr) (s : State), ∃ t, exec i s = .next t ∧ t.cmd = s.cmd)

/-- R18: a write of any value to `GO` takes the descriptor in `CMD0..CMD3` and runs the command it decodes to, in one
step; an illegal one latches `ILLEGAL_CMD`. A read of `GO` returns 0 and has no effect: R18 is followed where U9 would
refuse it (log entry 7), and the 0 is left in `response`, the model's form of returning it (log entry 4). -/
def Obligations.GoWriteRunsTheDecodedCommand : Prop :=
  ∀ (s : State) (rest : List Action),
    (∀ (v : Word) (i : Instr), s.host = .write 0x10 .word v :: rest → decode s.cmd = .command i →
      step s = exec i { s with host := rest }) ∧
    (∀ (v : Word) (e : DecodeError), s.host = .write 0x10 .word v :: rest → decode s.cmd = .illegal e →
      step s = .next { s with host := rest, status := latch .illegalCmd s.status }) ∧
    (s.host = .read 0x10 .word :: rest → step s = .next { s with host := rest, response := .word 0 })

/-- R45: the four `CMD` writes of a descriptor, in any order, then `GO`, execute that descriptor's command (or latch
`ILLEGAL_CMD`); so the five writes an assembler emits for a well-formed command execute it (R44). -/
def Obligations.CmdWritesInAnyOrderThenGoExecuteTheCommand : Prop :=
  (∀ (s : State) (d : Descriptor) (writes rest : List Action),
    writes.Perm [.write 0x00 .word d.cmd0, .write 0x04 .word d.cmd1, .write 0x08 .word d.cmd2,
      .write 0x0C .word d.cmd3] →
    s.host = writes ++ goWrite :: rest →
    Sys2Proof.core.run 5 s =
      match decode d with
      | .command i => exec i { s with host := rest, cmd := d }
      | .illegal _ => .next { s with host := rest, cmd := d, status := latch .illegalCmd s.status }) ∧
  (∀ (s : State) (i : Instr) (rest : List Action), i.wellFormed = true → s.host = issueWrites (encode i) ++ rest →
    Sys2Proof.core.run 5 s = exec i { s with host := rest, cmd := encode i })

/-- R15: an access that is narrower than 32 bits, misaligned, or not at one of the six offsets is refused; a 32-bit access
at one of the six goes on; for a write to `STATUS` and a read of `GO` that is the model's choice of R13 and R18 over U9
(log entry 7). The names of the refusals are the model's (log entry 8). -/
def Obligations.AccessesOutsideTheRegisterMapAreRefused : Prop :=
  ∀ (s : State) (offset : Nat) (width : AccessWidth) (v : Word) (rest : List Action),
    ((width ≠ .word ∨ offset ∉ [0x00, 0x04, 0x08, 0x0C, 0x10, 0x14]) →
      (s.host = .write offset width v :: rest → ∃ why, step s = .refused why) ∧
      (s.host = .read offset width :: rest → ∃ why, step s = .refused why)) ∧
    (width = .word → offset ∈ [0x00, 0x04, 0x08, 0x0C, 0x10, 0x14] →
      (s.host = .write offset width v :: rest → ∃ t, step s = .next t) ∧
      (s.host = .read offset width :: rest → ∃ t, step s = .next t))

/-- R13: a read of `STATUS` returns the latch, whose bits 31:4 are 0 in a legal state and whose `CAUSE` is 0 while
`FAULT` is 0 (the value read is left in `response`, log entry 4); a write to it is ignored (log entry 7: R13 is followed where
U9 says otherwise). -/
def Obligations.StatusReadsTheLatchAndIgnoresWrites : Prop :=
  ∀ (s : State) (v : Word) (rest : List Action), s.Inv →
    (s.host = .write 0x14 .word v :: rest → step s = .next { s with host := rest }) ∧
    (s.host = .read 0x14 .word :: rest → step s = .next { s with host := rest, response := .word s.status }) ∧
    s.status >>> 4 = 0 ∧
    (s.status &&& 1 = 0 → s.status = 0) ∧
    (s.status &&& 1 = 1 → s.status = 0x3 ∨ s.status = 0x5 ∨ s.status = 0x7 ∨ s.status = 0x9)

/-- spec/20_memory.md R30: a flush returns a copy of the whole framebuffer and changes nothing. That the copy is left in
`response` is the model's form of returning it (log entry 4). -/
def Obligations.FlushReturnsACopyAndChangesNothing : Prop :=
  ∀ (s : State) (rest : List Action), s.host = .flush :: rest →
    ∃ bytes : List Byte, step s = .next { s with host := rest, response := .frame bytes } ∧
      bytes.length = s.params.width * s.params.npages ∧
      ∀ j : Nat, j < s.params.width * s.params.npages → bytes[j]? = some (s.fb.read j)

/-- spec/70_reset_and_hazards.md R96 and R19: reset clears the framebuffer, `CMD0..CMD3` and `STATUS`, and touches neither
asset memory nor the parameters; the state the model starts in has those values too. That the agents' pending actions and
last response stay is the model's choice (log entry 10). -/
def Obligations.ResetClearsTheBlockAndKeepsAssets : Prop :=
  (∀ (s : State) (rest : List Action), s.host = .reset :: rest →
    ∃ fb' : Memory, step s = .next { s with host := rest, fb := fb', cmd := ⟨0, 0, 0, 0⟩, status := 0 } ∧
      ∀ j : Nat, fb'.read j = 0) ∧
  (∀ j : Nat, State.reset.fb.read j = 0) ∧ State.reset.cmd = ⟨0, 0, 0, 0⟩ ∧ State.reset.status = 0

/-- spec/20_memory.md R35: a byte the platform stores between commands is what the next command reads there, every other
asset byte is as before, and nothing else changes; outside `0 .. ASSET_SIZE-1` there is no byte to store to, and the model
stops (its own choice, log entry 9). -/
def Obligations.PlatformStoreChangesOneAssetByte : Prop :=
  ∀ (s : State) (a : Nat) (v : Byte) (rest : List Action), s.Inv → s.host = .storeAsset a v :: rest →
    (a < s.params.assetSize → ∃ assets' : Memory, step s = .next { s with host := rest, assets := assets' } ∧
      assets'.read a = v ∧ ∀ j : Nat, j ≠ a → assets'.read j = s.assets.read j) ∧
    (s.params.assetSize ≤ a → step s = .fault .noSuchAssetByte)

/-! ### The whole machine -/

/-- Every step from a legal state that goes on gives a legal state: canonical memories inside their address spaces, a legal
`STATUS`, well-formed parameters. -/
def Obligations.EveryStepKeepsTheLegalStates : Prop :=
  ∀ s t : State, s.Inv → step s = .next t → t.Inv

/-- The state after reset is legal. -/
def Obligations.ResetIsALegalState : Prop := State.reset.Inv

/-- spec/70_reset_and_hazards.md R103, spec/60_exceptions.md R87, spec/10_state.md R12, spec/20_memory.md R29: every command
ends in a next state that differs at most in the framebuffer or in `STATUS`, never in both; asset memory, the parameters and
`CMD0..CMD3` are not written. -/
def Obligations.EveryCommandEndsAndChangesFramebufferOrStatus : Prop :=
  ∀ (i : Instr) (s : State), ∃ (fb' : Memory) (v : Word),
    exec i s = .next { s with fb := fb', status := v } ∧ (fb' = s.fb ∨ v = s.status)

/-- The frame of every command, byte by byte: a framebuffer byte that is not the low or high byte of one of its processed
cells reads as before, and the bytes it stores to lie inside the framebuffer (spec/20_memory.md R22). -/
def Obligations.CommandsStoreOnlyToTheirCells : Prop :=
  ∀ (i : Instr) (s : State), s.Inv → ∃ t, exec i s = .next t ∧
    ∀ j : Nat, (¬ storesTo i s j → t.fb.read j = s.fb.read j) ∧ (storesTo i s j → j < s.params.fbSize)

/-- spec/20_memory.md R30, R20: the framebuffer is changed by a `GO` write or a reset only, asset memory by a platform store
only, the parameters by nothing. -/
def Obligations.OnlyDrawsAndResetWriteTheFramebuffer : Prop :=
  ∀ s t : State, step s = .next t →
    (t.fb ≠ s.fb → s.host.head? = some .reset ∨ ∃ v, s.host.head? = some (.write 0x10 .word v)) ∧
    (t.assets ≠ s.assets → ∃ a v, s.host.head? = some (.storeAsset a v)) ∧
    t.params = s.params

/-- spec/40_common_pipeline.md R48, R67: what a command does to a framebuffer pixel depends on that pixel alone of all the
framebuffer, and its fault does not depend on the framebuffer at all. -/
def Obligations.EachPixelDependsOnNoOtherPixel : Prop :=
  ∀ (i : Instr) (s : State) (fb₂ : Memory) (X Y : Nat), s.fb.wf = true → fb₂.wf = true →
    X < s.params.width → Y < 8 * s.params.npages → pixel s.params s.fb X Y = pixel s.params fb₂ X Y →
    ∃ t t₂, exec i s = .next t ∧ exec i { s with fb := fb₂ } = .next t₂ ∧
      t.status = t₂.status ∧ pixel s.params t.fb X Y = pixel s.params t₂.fb X Y

/-- spec/60_exceptions.md R82: "Cells clipped away are never read and never checked." A draw gives the same framebuffer in
every asset memory that agrees on its header and on the bytes of its processed cells. -/
def Obligations.DrawReadsOnlyItsHeaderAndProcessedCells : Prop :=
  ∀ (i : Instr) (s : State) (pl : Plan) (assets₂ : Memory), verdictOf i s = .draw pl →
    assets₂.read (requestOf i).bptr = s.assets.read (requestOf i).bptr →
    assets₂.read ((requestOf i).bptr + 1) = s.assets.read ((requestOf i).bptr + 1) →
    (∀ cell ∈ cells pl.clip, ∀ a, cellReads pl cell a → assets₂.read a = s.assets.read a) →
    ∃ fb' : Memory, exec i s = .next { s with fb := fb' } ∧
      exec i { s with assets := assets₂ } = .next { s with fb := fb', assets := assets₂ }

/-! ### Ends other than `Done` (spec/60_exceptions.md) -/

/-- R52: a command with a null bitmap reference changes nothing, in every mode, whatever the other operands. -/
def Obligations.NullBitmapIsASilentNoOp : Prop :=
  ∀ (i : Instr) (s : State), (requestOf i).bptr = 0 → exec i s = .next s

/-- R80, R81: a command is skipped exactly when its bitmap reference is null or, its header readable, the sprite is entirely
off-screen; a skipped command changes nothing. -/
def Obligations.ExactlyTwoConditionsSkipACommand : Prop :=
  ∀ (i : Instr) (s : State),
    (verdictOf i s = .skipped ↔ (requestOf i).bptr = 0 ∨
      ∃ w h, HeaderAt s.params s.assets (requestOf i).bptr w h ∧
        ((requestOf i).x + w ≤ 0 ∨ (s.params.width : Int) ≤ (requestOf i).x ∨
          (requestOf i).y + h ≤ 0 ∨ (s.params.height : Int) ≤ (requestOf i).y)) ∧
    (verdictOf i s = .skipped → exec i s = .next s)

/-- spec/30_encoding.md R41: issuing a descriptor whose `MODE` is 6 or 7 or that has a reserved bit set latches code 1 and
changes nothing else, whatever its other fields (a null bitmap among them). -/
def Obligations.IllegalDescriptorFaultsBeforeAnythingElse : Prop :=
  ∀ (s : State) (v : Word) (rest : List Action), s.Inv → s.host = .write 0x10 .word v :: rest →
    (s.cmd.cmd0 &&& 7 = 6 ∨ s.cmd.cmd0 &&& 7 = 7 ∨ s.cmd.cmd0 &&& 0xF8 ≠ 0 ∨ s.cmd.cmd0 &&& 0xFF000000 ≠ 0) →
    step s = .next { s with host := rest, status := if s.status &&& 1 = 1 then s.status else 0x3 }

/-- spec/40_common_pipeline.md R51: a header beyond asset memory latches `ASSET_RANGE` (code 2), a width or height of 0
latches `BAD_HEADER` (code 3); nothing else changes, on screen or off. -/
def Obligations.UnreadableAndZeroHeadersFault : Prop :=
  ∀ (i : Instr) (s : State), s.Inv → (requestOf i).bptr ≠ 0 →
    (s.params.assetSize ≤ (requestOf i).bptr + 1 →
      exec i s = .next { s with status := if s.status &&& 1 = 1 then s.status else 0x5 }) ∧
    ((requestOf i).bptr + 1 < s.params.assetSize →
      (s.assets.read (requestOf i).bptr = 0 ∨ s.assets.read ((requestOf i).bptr + 1) = 0) →
      exec i s = .next { s with status := if s.status &&& 1 = 1 then s.status else 0x7 })

/-- spec/42_masked_family.md R74, R76: an on-screen `drawExternalMask` with a null mask latches `NULL_MASK` (code 4) and
changes nothing else; no other command ever ends so. -/
def Obligations.NullMaskFaultsInDrawExternalMaskOnly : Prop :=
  (∀ (s : State) (x y : Int) (bitmap frame maskFrame w h : Nat), s.Inv → HeaderAt s.params s.assets bitmap w h →
    ¬ OffScreen s.params x y w h →
    exec (.drawExternalMask x y bitmap 0 frame maskFrame) s =
      .next { s with status := if s.status &&& 1 = 1 then s.status else 0x9 }) ∧
  (∀ (i : Instr) (s : State), verdictOf i s = .fault .nullMask →
    ∃ x y bitmap frame maskFrame, i = .drawExternalMask x y bitmap 0 frame maskFrame)

/-- R82: past the header and the early exit, a command latches `ASSET_RANGE` (code 2) and draws nothing if some byte of a
processed cell lies at or beyond `ASSET_SIZE`, and is drawn if none does, whichever cells those are. -/
def Obligations.RangeFaultExactlyWhenAProcessedCellIsOutside : Prop :=
  ∀ (i : Instr) (s : State) (w h : Nat), s.Inv → HeaderAt s.params s.assets (requestOf i).bptr w h →
    ¬ OffScreen s.params (requestOf i).x (requestOf i).y w h →
    ¬ (resolveMode (requestOf i).mode (requestOf i).mptr = .externalMask ∧ (requestOf i).mptr = 0) →
    ((∃ cell ∈ cells (clip s.params (requestOf i).x (requestOf i).y w h), ∃ a,
        cellReads (planOf s.params (requestOf i) ⟨w, h⟩) cell a ∧ s.params.assetSize ≤ a) →
      exec i s = .next { s with status := if s.status &&& 1 = 1 then s.status else 0x5 }) ∧
    ((∀ cell ∈ cells (clip s.params (requestOf i).x (requestOf i).y w h), ∀ a,
        cellReads (planOf s.params (requestOf i) ⟨w, h⟩) cell a → a < s.params.assetSize) →
      ∃ fb' : Memory, exec i s = .next { s with fb := fb' })

/-- R84: a faulting command sets `FAULT` and `CAUSE` if no fault is recorded, keeps the recorded one otherwise, and changes
nothing else; once `FAULT` is 1, no step but a reset changes `STATUS`. -/
def Obligations.FirstFaultIsLatchedUntilReset : Prop :=
  (∀ (i : Instr) (s : State) (code : FaultCode), verdictOf i s = .fault code →
    ∃ v : Word, exec i s = .next { s with status := v } ∧
      (statusFault s.status = true → v = s.status) ∧
      (statusFault s.status = false →
        statusFault v = true ∧ statusCause v = code.code ∧ statusReserved v = statusReserved s.status)) ∧
  (∀ s t : State, step s = .next t → statusFault s.status = true → s.host.head? ≠ some .reset →
    t.status = s.status)

/-- R13, R83, R87: `STATUS` changes only by a reset or by a `GO` write that faults, and then the framebuffer is as before. -/
def Obligations.StatusChangesOnlyByAFaultOrReset : Prop :=
  ∀ s t : State, step s = .next t → t.status ≠ s.status →
    s.host.head? = some .reset ∨
      ((∃ v, s.host.head? = some (.write 0x10 .word v)) ∧ t.fb = s.fb ∧ statusFault t.status = true)

/-- R88: what `STATUS` holds does not alter what a command does to anything but `STATUS`. -/
def Obligations.RecordedFaultDoesNotAlterLaterCommands : Prop :=
  ∀ (i : Instr) (s : State) (v : Word), ∃ (t : State) (v' : Word),
    exec i s = .next t ∧ exec i { s with status := v } = .next { t with status := v' }

/-! ### The pipeline (spec/40_common_pipeline.md) -/

/-- R58: `startPage` is the floor and `yOffset` the mathematical modulo, also for negative `y`. -/
def Obligations.StartPageIsFloorAndYOffsetIsModulo : Prop :=
  (∀ y : Int, y = 8 * startPage y + yOffset y ∧ yOffset y ≤ 7) ∧
  startPage (-1) = -1 ∧ startPage (-8) = -1 ∧ startPage (-9) = -2 ∧ startPage 9 = 1 ∧
  yOffset (-1) = 7 ∧ yOffset (-8) = 0 ∧ yOffset (-9) = 7 ∧ yOffset 9 = 1

/-- R57, R59, R60: after the early exit the clip is never empty and never larger than sprite or screen, and every processed
cell lands in page-row -1 to `LASTPAGE` and in a column of the screen. -/
def Obligations.ClippedCellsLandOnTheFramebuffer : Prop :=
  ∀ (p : Params) (x y : Int) (w h : Nat), p.wf = true → w ≠ 0 → h ≠ 0 → ¬ OffScreen p x y w h →
    1 ≤ renderedWidth p x w ∧ renderedWidth p x w ≤ min w p.width ∧
    startSkipRows y < endRows p y h ∧ endRows p y h ≤ pageRows h ∧
    ∀ cell ∈ cells (clip p x y w h),
      -1 ≤ startPage y + cell.1 ∧ startPage y + cell.1 ≤ p.lastPage ∧ 0 ≤ x + cell.2 ∧ x + cell.2 < p.width

/-- R62: the shifted byte is exact in 16 bits; its low byte is `(b << n) & 0xFF`, its high byte `b >> (8 - n)`. -/
def Obligations.ShiftSplitsIntoLowAndHighByte : Prop :=
  ∀ (b : Byte) (n : Nat), n < 8 →
    (shifted b n).toNat = b.toNat * 2 ^ n ∧ (lo8 (shifted b n)).toNat = b.toNat * 2 ^ n % 256 ∧
      (hi8 (shifted b n)).toNat = b.toNat / 2 ^ (8 - n)

/-- spec/20_memory.md R34, spec/40_common_pipeline.md R65: the traversal is a finite list of at most `P * renderedWidth`
cells, at most 32 * 255 for any header, in strictly rising order, page-row first, column fastest. -/
def Obligations.TraversalIsBoundedAndColumnFastest : Prop :=
  ∀ (p : Params) (x y : Int) (w h : Nat), w ≤ 255 → h ≤ 255 →
    (cells (clip p x y w h)).length ≤ pageRows h * renderedWidth p x w ∧
    (cells (clip p x y w h)).length ≤ 32 * 255 ∧
    (cells (clip p x y w h)).Pairwise fun a b => a.1 < b.1 ∨ (a.1 = b.1 ∧ a.2 < b.2)

/-- R65: the framebuffer a draw leaves does not depend on the order of the cells, nor on whether a cell merges its low or
its high byte first. -/
def Obligations.FramebufferDoesNotDependOnTraversalOrder : Prop :=
  ∀ (p : Params) (assets fb : Memory) (r : Request) (hd : Header) (order : List (Nat × Nat)), fb.wf = true →
    order.Perm (cells (planOf p r hd).clip) →
    order.foldl (drawCell p assets (planOf p r hd)) fb = compose p assets (planOf p r hd) fb ∧
    order.foldl (fun m cell => mergeLow p assets (planOf p r hd) cell.1 cell.2
      (mergeHigh p assets (planOf p r hd) cell.1 cell.2 m)) fb = compose p assets (planOf p r hd) fb

/-! ### The merge operators -/

/-- spec/41_unmasked_family.md R68 and spec/42_masked_family.md R73, bit by bit, with the table of own-masks: `Unmasked` has
the mask byte `0xFF` in every cell, shifted like any other. Where sprite and mask bit are 0 the old bit is kept. -/
def Obligations.MergeOperatorsAndOwnMaskBitByBit : Prop :=
  (∀ (old sB kB : Byte) (b : Nat), b < 8 →
    (merge .unmasked old sB kB).getLsbD b = ((old.getLsbD b && !kB.getLsbD b) || sB.getLsbD b) ∧
    (merge .selfMasked old sB kB).getLsbD b = (old.getLsbD b || sB.getLsbD b) ∧
    (merge .erase old sB kB).getLsbD b = (old.getLsbD b && !sB.getLsbD b) ∧
    (merge .externalMask old sB kB).getLsbD b = ((old.getLsbD b && !kB.getLsbD b) || sB.getLsbD b) ∧
    (merge .combinedMask old sB kB).getLsbD b = ((old.getLsbD b && !kB.getLsbD b) || sB.getLsbD b) ∧
    (∀ mode, sB.getLsbD b = false → kB.getLsbD b = false → (merge mode old sB kB).getLsbD b = old.getLsbD b)) ∧
  (∀ (pl : Plan) (assets : Memory) (pr c : Nat), pl.mode = .unmasked → maskByte pl assets pr c = 0xFF) ∧
  (List.range 8).map (fun n => lo8 (shifted 0xFF n)) = [0xFF, 0xFE, 0xFC, 0xF8, 0xF0, 0xE0, 0xC0, 0x80] ∧
  (List.range 8).map (fun n => hi8 (shifted 0xFF n)) = [0x00, 0x01, 0x03, 0x07, 0x0F, 0x1F, 0x3F, 0x7F]

/-! ### The six commands: what each one completes with (spec/41_unmasked_family.md, spec/42_masked_family.md)

Premises on the state and the operands alone: a readable header, the sprite not off-screen, the last processed cell inside
asset memory (R82). The conclusion is the next state: only the framebuffer changes, and in it exactly the pixels of the
sprite's page-granular rectangle, each by the command's operator. -/

/-- R69: every covered pixel becomes the bitmap's. -/
def Obligations.DrawOverwriteCopiesEveryBitmapPixel : Prop :=
  ∀ (s : State) (x y : Int) (bitmap frame w h : Nat), s.Inv → HeaderAt s.params s.assets bitmap w h →
    ¬ OffScreen s.params x y w h →
    bitmap + 2 + frame * (w * pageRows h) + lastCell s.params x y w h < s.params.assetSize →
    ∃ fb' : Memory, exec (.drawOverwrite x y bitmap frame) s = .next { s with fb := fb' } ∧
      Drawn s.params s.fb fb' x y w h fun c r _ => plainBit s.assets (bitmap + 2 + frame * (w * pageRows h)) w c r

/-- R70: every covered pixel whose bitmap bit is 1 becomes 1, every other is unchanged. -/
def Obligations.DrawSelfMaskedSetsTheBitmapPixels : Prop :=
  ∀ (s : State) (x y : Int) (bitmap frame w h : Nat), s.Inv → HeaderAt s.params s.assets bitmap w h →
    ¬ OffScreen s.params x y w h →
    bitmap + 2 + frame * (w * pageRows h) + lastCell s.params x y w h < s.params.assetSize →
    ∃ fb' : Memory, exec (.drawSelfMasked x y bitmap frame) s = .next { s with fb := fb' } ∧
      Drawn s.params s.fb fb' x y w h fun c r old =>
        old || plainBit s.assets (bitmap + 2 + frame * (w * pageRows h)) w c r

/-- R71: every covered pixel whose bitmap bit is 1 becomes 0, every other is unchanged. -/
def Obligations.DrawEraseClearsTheBitmapPixels : Prop :=
  ∀ (s : State) (x y : Int) (bitmap frame w h : Nat), s.Inv → HeaderAt s.params s.assets bitmap w h →
    ¬ OffScreen s.params x y w h →
    bitmap + 2 + frame * (w * pageRows h) + lastCell s.params x y w h < s.params.assetSize →
    ∃ fb' : Memory, exec (.drawErase x y bitmap frame) s = .next { s with fb := fb' } ∧
      Drawn s.params s.fb fb' x y w h fun c r old =>
        old && !plainBit s.assets (bitmap + 2 + frame * (w * pageRows h)) w c r

/-- R74: `(old AND NOT k) OR s`, the mask from a headerless asset with a frame number of its own. -/
def Obligations.DrawExternalMaskMergesImageUnderMask : Prop :=
  ∀ (s : State) (x y : Int) (bitmap mask frame maskFrame w h : Nat), s.Inv →
    HeaderAt s.params s.assets bitmap w h → mask ≠ 0 → ¬ OffScreen s.params x y w h →
    bitmap + 2 + frame * (w * pageRows h) + lastCell s.params x y w h < s.params.assetSize →
    mask + maskFrame * (w * pageRows h) + lastCell s.params x y w h < s.params.assetSize →
    ∃ fb' : Memory, exec (.drawExternalMask x y bitmap mask frame maskFrame) s = .next { s with fb := fb' } ∧
      Drawn s.params s.fb fb' x y w h fun c r old =>
        (old && !plainBit s.assets (mask + maskFrame * (w * pageRows h)) w c r) ||
          plainBit s.assets (bitmap + 2 + frame * (w * pageRows h)) w c r

/-- R75: the same operator, image and mask interleaved in one asset with frames of twice the size. That the image byte
stands first in a cell is PRESUMED (log entry 12). -/
def Obligations.DrawPlusMaskMergesInterleavedCells : Prop :=
  ∀ (s : State) (x y : Int) (bitmap frame w h : Nat), s.Inv → HeaderAt s.params s.assets bitmap w h →
    ¬ OffScreen s.params x y w h →
    bitmap + 2 + frame * (2 * w * pageRows h) + 2 * lastCell s.params x y w h + 1 < s.params.assetSize →
    ∃ fb' : Memory, exec (.drawPlusMask x y bitmap frame) s = .next { s with fb := fb' } ∧
      Drawn s.params s.fb fb' x y w h fun c r old =>
        (old && !combinedMaskBit s.assets (bitmap + 2 + frame * (2 * w * pageRows h)) w c r) ||
          combinedImageBit s.assets (bitmap + 2 + frame * (2 * w * pageRows h)) w c r

/-- R76: with a null mask the bitmap is copied, with a mask it is merged under it. -/
def Obligations.DrawAutoCopiesOrMergesByItsMask : Prop :=
  ∀ (s : State) (x y : Int) (bitmap mask frame maskFrame w h : Nat), s.Inv →
    HeaderAt s.params s.assets bitmap w h → ¬ OffScreen s.params x y w h →
    bitmap + 2 + frame * (w * pageRows h) + lastCell s.params x y w h < s.params.assetSize →
    (mask ≠ 0 → mask + maskFrame * (w * pageRows h) + lastCell s.params x y w h < s.params.assetSize) →
    ∃ fb' : Memory, exec (.drawAuto x y bitmap mask frame maskFrame) s = .next { s with fb := fb' } ∧
      Drawn s.params s.fb fb' x y w h fun c r old =>
        if mask = 0 then plainBit s.assets (bitmap + 2 + frame * (w * pageRows h)) w c r
        else (old && !plainBit s.assets (mask + maskFrame * (w * pageRows h)) w c r) ||
          plainBit s.assets (bitmap + 2 + frame * (w * pageRows h)) w c r

/-- spec/40_common_pipeline.md R66: `drawAuto` is `drawExternalMask` if a mask reference is supplied and `drawOverwrite` if
it is null, in every state and for every other operand, faults and skips included; `CMD0` is not rewritten. -/
def Obligations.AutoIsResolvedByTheMaskReferenceAlone : Prop :=
  ∀ (s : State) (x y : Int) (bitmap mask frame maskFrame : Nat),
    (mask ≠ 0 → exec (.drawAuto x y bitmap mask frame maskFrame) s =
      exec (.drawExternalMask x y bitmap mask frame maskFrame) s) ∧
    exec (.drawAuto x y bitmap 0 frame maskFrame) s = exec (.drawOverwrite x y bitmap frame) s ∧
    (∃ t, exec (.drawAuto x y bitmap mask frame maskFrame) s = .next t ∧ t.cmd = s.cmd)

/-- The source's first testable property (R69, T1): fully inside and page-aligned, `drawOverwrite` stores the bitmap's bytes
themselves, and no other byte. -/
def Obligations.AlignedOverwriteStoresTheBitmapBytes : Prop :=
  ∀ (s : State) (x y bitmap frame w h : Nat), s.Inv → HeaderAt s.params s.assets bitmap w h →
    x + w ≤ s.params.width → y + h ≤ s.params.height → y % 8 = 0 →
    bitmap + 2 + (frame + 1) * (w * pageRows h) ≤ s.params.assetSize →
    ∃ fb' : Memory, exec (.drawOverwrite x y bitmap frame) s = .next { s with fb := fb' } ∧
      (∀ pr c : Nat, pr < pageRows h → c < w → fb'.read ((y / 8 + pr) * s.params.width + (x + c)) =
        s.assets.read (bitmap + 2 + frame * (w * pageRows h) + c + pr * w)) ∧
      ∀ j : Nat, (∀ pr c : Nat, pr < pageRows h → c < w → j ≠ (y / 8 + pr) * s.params.width + (x + c)) →
        fb'.read j = s.fb.read j

/-! ### Laws of the families -/

/-- R69, R70, R71, R74: every command is idempotent: issued twice it leaves what it leaves issued once. -/
def Obligations.EveryCommandIsIdempotent : Prop :=
  ∀ (i : Instr) (s : State), s.Inv → ∃ t, exec i s = .next t ∧ exec i t = .next t

/-- R72 (a): `drawSelfMasked` then `drawErase` with the same operands equals `drawErase` alone, whatever the outcome. -/
def Obligations.SelfMaskedThenEraseIsEraseAlone : Prop :=
  ∀ (s : State) (x y : Int) (bitmap frame : Nat), s.Inv →
    ∃ t, exec (.drawSelfMasked x y bitmap frame) s = .next t ∧
      exec (.drawErase x y bitmap frame) t = exec (.drawErase x y bitmap frame) s

/-- R72 (b): overwrite with a sprite, erase with an all-ones asset of the same size, OR the saved background back: the
buffer is what it was, for every offset and every clipping. -/
def Obligations.SavedBackgroundIsRestoredExactly : Prop :=
  ∀ (s : State) (x y : Int) (sprite frame ones saved w h : Nat), s.Inv →
    HeaderAt s.params s.assets sprite w h → HeaderAt s.params s.assets ones w h → HeaderAt s.params s.assets saved w h →
    sprite + 2 + (frame + 1) * (w * pageRows h) ≤ s.params.assetSize →
    ones + 2 + w * pageRows h ≤ s.params.assetSize → saved + 2 + w * pageRows h ≤ s.params.assetSize →
    (∀ k : Nat, k < w * pageRows h → s.assets.read (ones + 2 + k) = 0xFF) →
    (∀ X Y : Nat, X < s.params.width → Y < 8 * s.params.npages → InSprite x y w h X Y →
      plainBit s.assets (saved + 2) w (X - x).toNat (Y - y).toNat = pixel s.params s.fb X Y) →
    ∃ t u, exec (.drawOverwrite x y sprite frame) s = .next t ∧ exec (.drawErase x y ones 0) t = .next u ∧
      exec (.drawSelfMasked x y saved 0) u = .next s

/-- R77: one picture stored as two assets and as one interleaved asset gives the same state, and the same outcome, which is
`Done` or `Skipped`. The premise puts the image byte of a combined cell first and its mask byte second, which is PRESUMED
(log entry 12). -/
def Obligations.ExternalAndCombinedMaskGiveTheSameResult : Prop :=
  ∀ (s : State) (x y : Int) (bitmap mask combined frames frame w h : Nat),
    HeaderAt s.params s.assets bitmap w h → HeaderAt s.params s.assets combined w h → mask ≠ 0 → frame < frames →
    bitmap + 2 + frames * (w * pageRows h) ≤ s.params.assetSize →
    mask + frames * (w * pageRows h) ≤ s.params.assetSize →
    combined + 2 + frames * (2 * w * pageRows h) ≤ s.params.assetSize →
    (∀ g pr c : Nat, g < frames → pr < pageRows h → c < w →
      s.assets.read (combined + 2 + g * (2 * w * pageRows h) + 2 * (c + pr * w)) =
        s.assets.read (bitmap + 2 + g * (w * pageRows h) + c + pr * w) ∧
      s.assets.read (combined + 2 + g * (2 * w * pageRows h) + 2 * (c + pr * w) + 1) =
        s.assets.read (mask + g * (w * pageRows h) + c + pr * w)) →
    ∃ fb' : Memory, exec (.drawExternalMask x y bitmap mask frame frame) s = .next { s with fb := fb' } ∧
      exec (.drawPlusMask x y combined frame) s = .next { s with fb := fb' }

/-- R74: with a mask whose processed bytes are all 0x00 `drawExternalMask` equals `drawSelfMasked`, with all 0xFF it equals
`drawOverwrite`. -/
def Obligations.ExternalMaskOfZerosOrOnesIsAnUnmaskedDraw : Prop :=
  ∀ (s : State) (x y : Int) (bitmap mask frame maskFrame w h : Nat), s.Inv → HeaderAt s.params s.assets bitmap w h →
    mask ≠ 0 → mask + (maskFrame + 1) * (w * pageRows h) ≤ s.params.assetSize →
    ((∀ cell ∈ cells (clip s.params x y w h),
        s.assets.read (mask + maskFrame * (w * pageRows h) + (cell.2 + cell.1 * w)) = 0x00) →
      exec (.drawExternalMask x y bitmap mask frame maskFrame) s = exec (.drawSelfMasked x y bitmap frame) s) ∧
    ((∀ cell ∈ cells (clip s.params x y w h),
        s.assets.read (mask + maskFrame * (w * pageRows h) + (cell.2 + cell.1 * w)) = 0xFF) →
      exec (.drawExternalMask x y bitmap mask frame maskFrame) s = exec (.drawOverwrite x y bitmap frame) s)

/-- R70, R71: two `drawSelfMasked` commands leave the same framebuffer in either order, and so do two `drawErase`. -/
def Obligations.SelfMaskedDrawsCommuteAndErasesCommute : Prop :=
  ∀ (s : State) (x y x' y' : Int) (bitmap frame bitmap' frame' : Nat), s.Inv →
    (∃ t u t' u', exec (.drawSelfMasked x y bitmap frame) s = .next t ∧
      exec (.drawSelfMasked x' y' bitmap' frame') t = .next u ∧
      exec (.drawSelfMasked x' y' bitmap' frame') s = .next t' ∧
      exec (.drawSelfMasked x y bitmap frame) t' = .next u' ∧ u.fb = u'.fb) ∧
    (∃ t u t' u', exec (.drawErase x y bitmap frame) s = .next t ∧
      exec (.drawErase x' y' bitmap' frame') t = .next u ∧
      exec (.drawErase x' y' bitmap' frame') s = .next t' ∧
      exec (.drawErase x y bitmap frame) t' = .next u' ∧ u.fb = u'.fb)
end

