-- ==== Sys2Proof/Laws/Bytes.lean ====
section
/-! SUPPORT. The shift, the split and the merge operators, bit by bit (spec/40_common_pipeline.md R62,
spec/41_unmasked_family.md R68, spec/42_masked_family.md R73). -/

namespace Sys2Proof.Machine

/-- The merge operator on one pixel. -/
def mergeBit (mode : MergeMode) (old s k : Bool) : Bool :=
  match mode with
  | .unmasked => (old && !k) || s
  | .selfMasked => old || s
  | .erase => old && !s
  | .externalMask => (old && !k) || s
  | .combinedMask => (old && !k) || s

/-- Every operator keeps a bit at which both half-bytes are 0. -/
@[simp] theorem mergeBit_false (mode : MergeMode) (old : Bool) : mergeBit mode old false false = old := by
  cases mode <;> simp [mergeBit]

/-- Merging the same pixel a second time changes nothing. -/
theorem mergeBit_idem (mode : MergeMode) (old s k : Bool) :
    mergeBit mode (mergeBit mode old s k) s k = mergeBit mode old s k := by
  cases mode <;> cases old <;> cases s <;> cases k <;> rfl

theorem getLsbD_merge (mode : MergeMode) (old s k : Byte) {i : Nat} (h : i < 8) :
    (merge mode old s k).getLsbD i = mergeBit mode (old.getLsbD i) (s.getLsbD i) (k.getLsbD i) := by
  cases mode <;> simp [merge, mergeBit, h]

/-- The low byte holds sprite bit `i - n` at bit `i`. -/
theorem getLsbD_lo8 (b : Byte) (n : Nat) {i : Nat} (h : i < 8) :
    (lo8 (shifted b n)).getLsbD i = (decide (n ≤ i) && b.getLsbD (i - n)) := by
  have h16 : i < 16 := by omega
  by_cases hn : n ≤ i
  · simp [lo8, shifted, h, h16, hn, Nat.not_lt.mpr hn]
  · simp [lo8, shifted, h, h16, hn, Nat.lt_of_not_le hn]

/-- The high byte holds sprite bit `8 + i - n` at bit `i`; none from bit `n` on. -/
theorem getLsbD_hi8 (b : Byte) {n : Nat} (hn : n ≤ 8) {i : Nat} (h : i < 8) :
    (hi8 (shifted b n)).getLsbD i = b.getLsbD (8 + i - n) := by
  have h16 : 8 + i < 16 := by omega
  have hlt : ¬ 8 + i < n := by omega
  simp [hi8, shifted, h, h16, hlt]

end Sys2Proof.Machine
end

