-- ==== Sys2Proof/Laws/Clip.lean ====
section
/-! SUPPORT. Clipping: which cells a draw processes, and where they land (spec/40_common_pipeline.md R57 to R60). -/

namespace Sys2Proof.Machine

theorem offScreen_iff {p : Params} {x y : Int} {w h : Nat} : offScreen p x y w h = true ↔ OffScreen p x y w h := by
  simp [offScreen, or_assoc]

theorem maskMissing_iff {mode : MergeMode} {mptr : Nat} :
    maskMissing mode mptr = true ↔ mode = .externalMask ∧ mptr = 0 := by
  simp [maskMissing]

theorem outOfRange_iff {p : Params} {pl : Plan} :
    outOfRange p pl = true ↔ p.assetSize ≤ imgMax pl ∨ (pl.mode = .externalMask ∧ p.assetSize ≤ maskMax pl) := by
  simp [outOfRange]

@[simp] theorem clip_xOffset (p : Params) (x y : Int) (w h : Nat) : (clip p x y w h).xOffset = xOffset x := rfl
@[simp] theorem clip_renderedWidth (p : Params) (x y : Int) (w h : Nat) :
    (clip p x y w h).renderedWidth = renderedWidth p x w := rfl
@[simp] theorem clip_startPage (p : Params) (x y : Int) (w h : Nat) : (clip p x y w h).startPage = startPage y := rfl
@[simp] theorem clip_yOffset (p : Params) (x y : Int) (w h : Nat) : (clip p x y w h).yOffset = yOffset y := rfl
@[simp] theorem clip_startSkipRows (p : Params) (x y : Int) (w h : Nat) :
    (clip p x y w h).startSkipRows = startSkipRows y := rfl
@[simp] theorem clip_endRows (p : Params) (x y : Int) (w h : Nat) : (clip p x y w h).endRows = endRows p y h := rfl

theorem yOffset_lt (y : Int) : yOffset y < 8 := by
  have := Int.emod_lt_of_pos y (show (0 : Int) < 8 by decide)
  have := Int.emod_nonneg y (show (8 : Int) ≠ 0 by decide)
  unfold yOffset; omega

/-- `y = 8*startPage + yOffset` always (R58). -/
theorem eight_startPage_add_yOffset (y : Int) : 8 * startPage y + (yOffset y : Int) = y := by
  unfold startPage yOffset; omega

/-- The processed columns are the sprite columns that land on the screen (R57). -/
theorem column_iff (p : Params) (x : Int) (w c : Nat) :
    (xOffset x ≤ c ∧ c < xOffset x + renderedWidth p x w) ↔ c < w ∧ 0 ≤ x + c ∧ x + c < p.width := by
  unfold renderedWidth xOffset
  split <;> split <;> omega

/-- The processed page-rows are those whose low byte lands in page-row -1 to `LASTPAGE` (R59). -/
theorem row_iff (p : Params) (y : Int) (h pr : Nat) :
    (startSkipRows y ≤ pr ∧ pr < endRows p y h) ↔
      pr < pageRows h ∧ -1 ≤ startPage y + pr ∧ startPage y + pr ≤ p.lastPage := by
  unfold startSkipRows endRows Params.lastPage
  split <;> omega

theorem mem_cells {g : Clip} {cell : Nat × Nat} :
    cell ∈ cells g ↔ (g.startSkipRows ≤ cell.1 ∧ cell.1 < g.endRows) ∧
      (g.xOffset ≤ cell.2 ∧ cell.2 < g.xOffset + g.renderedWidth) := by
  obtain ⟨pr, c⟩ := cell
  simp only [cells, List.mem_flatMap, List.mem_range'_1, List.mem_map, Prod.mk.injEq]
  constructor
  · rintro ⟨q, hq, d, hd, rfl, rfl⟩
    omega
  · rintro ⟨h1, h2⟩
    exact ⟨pr, by omega, c, by omega, rfl, rfl⟩

/-- The cells of a draw (R60): sprite cells whose column is on the screen and whose page-row is -1 to `LASTPAGE`. -/
theorem mem_cells_clip {p : Params} {x y : Int} {w h : Nat} {cell : Nat × Nat} :
    cell ∈ cells (clip p x y w h) ↔
      (cell.1 < pageRows h ∧ -1 ≤ startPage y + cell.1 ∧ startPage y + cell.1 ≤ p.lastPage) ∧
      (cell.2 < w ∧ 0 ≤ x + cell.2 ∧ x + cell.2 < p.width) := by
  rw [mem_cells, clip_startSkipRows, clip_endRows, clip_xOffset, clip_renderedWidth, row_iff, column_iff]

/-- No cell is processed twice. -/
theorem cells_nodup (g : Clip) : (cells g).Nodup := by
  unfold cells
  rw [List.nodup_flatMap]
  refine ⟨fun pr _ => (List.nodup_range' (step := 1)).map fun a b h => by simpa using h, ?_⟩
  refine (List.nodup_range' (step := 1)).imp fun hne => ?_
  rw [Function.onFun, List.disjoint_left]
  intro cell h1 h2
  simp only [List.mem_map] at h1 h2
  obtain ⟨_, _, rfl⟩ := h1
  obtain ⟨_, _, h2⟩ := h2
  exact hne (by simpa using (congrArg Prod.fst h2).symm)

theorem length_cells (g : Clip) : (cells g).length = (g.endRows - g.startSkipRows) * g.renderedWidth := by
  simp [cells, List.length_flatMap]

/-- What the early exit leaves (R57): something of the sprite is drawn in each page-row. -/
theorem renderedWidth_pos {p : Params} {x y : Int} {w h : Nat} (hp : p.wf = true) (hw : w ≠ 0)
    (hon : ¬ OffScreen p x y w h) : 1 ≤ renderedWidth p x w := by
  simp only [Params.wf, Bool.and_eq_true, decide_eq_true_eq] at hp
  unfold renderedWidth xOffset
  split <;> split <;> omega

/-- "After rule R56 the range is never empty" (R59). -/
theorem startSkipRows_lt_endRows {p : Params} {x y : Int} {w h : Nat} (hp : p.wf = true) (hh : h ≠ 0)
    (hon : ¬ OffScreen p x y w h) : startSkipRows y < endRows p y h := by
  simp only [Params.wf, Bool.and_eq_true, decide_eq_true_eq] at hp
  unfold startSkipRows endRows startPage pageRows Params.npages
  split <;> omega

/-- The last cell of R82 is one of the processed cells. -/
theorem lastCell_mem {p : Params} {x y : Int} {w h : Nat} (hp : p.wf = true) (hw : w ≠ 0) (hh : h ≠ 0)
    (hon : ¬ OffScreen p x y w h) :
    ((clip p x y w h).lastRow, (clip p x y w h).lastColumn) ∈ cells (clip p x y w h) := by
  have h1 := renderedWidth_pos hp hw hon
  have h2 := startSkipRows_lt_endRows hp hh hon
  rw [mem_cells]
  simp only [Clip.lastRow, Clip.lastColumn, clip_startSkipRows, clip_endRows, clip_xOffset, clip_renderedWidth]
  omega

/-- Cell offsets grow in traversal order, so the last cell has the largest (R82). -/
theorem cell_le_last {g : Clip} {w : Nat} {cell : Nat × Nat} (hc : cell ∈ cells g) :
    cell.2 + cell.1 * w ≤ g.lastColumn + g.lastRow * w := by
  rw [mem_cells] at hc
  have hr : cell.1 ≤ g.lastRow := by unfold Clip.lastRow; omega
  have hcol : cell.2 ≤ g.lastColumn := by unfold Clip.lastColumn; omega
  exact Nat.add_le_add hcol (Nat.mul_le_mul_right w hr)

/-- A processed cell lies inside its frame. -/
theorem cell_lt {p : Params} {x y : Int} {w h : Nat} {cell : Nat × Nat} (hc : cell ∈ cells (clip p x y w h)) :
    cell.2 + cell.1 * w < w * pageRows h := by
  have hc := mem_cells_clip.mp hc
  calc cell.2 + cell.1 * w < (cell.1 + 1) * w := by rw [Nat.add_mul]; omega
    _ ≤ pageRows h * w := Nat.mul_le_mul_right w hc.1.1
    _ = w * pageRows h := Nat.mul_comm _ _

/-- The last processed cell lies inside its frame, so a frame that fits in asset memory passes the range check. -/
theorem lastCell_lt {p : Params} {x y : Int} {w h : Nat} (hp : p.wf = true) (hw : w ≠ 0) (hh : h ≠ 0)
    (hon : ¬ OffScreen p x y w h) : lastCell p x y w h < w * pageRows h :=
  cell_lt (lastCell_mem hp hw hh hon)

end Sys2Proof.Machine
end

