-- ==== Sys2Proof/Laws/Memory.lean ====
section
/-! SUPPORT. The laws of a byte memory in canonical form: read after write, the form is kept, and equal reads are equal
memories. -/

namespace Sys2Proof.Machine

@[simp] theorem Memory.read_nil (a : Nat) : Memory.read [] a = unlisted := rfl

theorem Memory.read_cons (k : Nat) (b : Byte) (m : Memory) (a : Nat) :
    Memory.read ((k, b) :: m) a = if k = a then b else m.read a := rfl

theorem Memory.wfFrom_cons {lo k : Nat} {b : Byte} {m : Memory} :
    Memory.wfFrom lo ((k, b) :: m) = true ↔ lo ≤ k ∧ b ≠ unlisted ∧ Memory.wfFrom (k + 1) m = true := by
  simp [Memory.wfFrom, and_assoc]

theorem Memory.wfFrom_mono {lo lo' : Nat} {m : Memory} (h : Memory.wfFrom lo m = true) (hl : lo' ≤ lo) :
    Memory.wfFrom lo' m = true := by
  cases m with
  | nil => rfl
  | cons c m =>
    obtain ⟨k, b⟩ := c
    rw [Memory.wfFrom_cons] at h ⊢
    exact ⟨hl.trans h.1, h.2⟩

/-- Below its first possible address a canonical memory lists nothing. -/
theorem Memory.read_below {lo a : Nat} {m : Memory} (h : Memory.wfFrom lo m = true) (ha : a < lo) :
    m.read a = unlisted := by
  induction m generalizing lo with
  | nil => rfl
  | cons c m ih =>
    obtain ⟨k, b⟩ := c
    rw [Memory.wfFrom_cons] at h
    rw [Memory.read_cons, if_neg (by omega), ih h.2.2 (by omega)]

theorem Memory.wfFrom_write {lo a : Nat} {v : Byte} {m : Memory} (h : Memory.wfFrom lo m = true) (ha : lo ≤ a) :
    Memory.wfFrom lo (m.write a v) = true := by
  induction m generalizing lo with
  | nil =>
    simp only [Memory.write]
    split
    · rfl
    · rw [Memory.wfFrom_cons]; exact ⟨ha, ‹_›, rfl⟩
  | cons c m ih =>
    obtain ⟨k, b⟩ := c
    have h' := Memory.wfFrom_cons.mp h
    simp only [Memory.write]
    split
    · split
      · exact h
      · rw [Memory.wfFrom_cons, Memory.wfFrom_cons]
        exact ⟨ha, ‹_›, by omega, h'.2⟩
    · split
      · subst a
        split
        · exact Memory.wfFrom_mono h'.2.2 (by omega)
        · rw [Memory.wfFrom_cons]; exact ⟨h'.1, ‹_›, h'.2.2⟩
      · rw [Memory.wfFrom_cons]
        exact ⟨h'.1, h'.2.1, ih h'.2.2 (by omega)⟩

/-- Every store keeps the canonical form. -/
theorem Memory.wf_write {m : Memory} (h : m.wf = true) (a : Nat) (v : Byte) : (m.write a v).wf = true :=
  Memory.wfFrom_write h (Nat.zero_le a)

theorem Memory.read_writeFrom {lo : Nat} {m : Memory} (h : Memory.wfFrom lo m = true) (a j : Nat) (v : Byte) :
    (m.write a v).read j = if j = a then v else m.read j := by
  induction m generalizing lo with
  | nil =>
    simp only [Memory.write]
    split
    · simp [‹v = unlisted›]
    · rw [Memory.read_cons, Memory.read_nil]
      exact if_congr eq_comm rfl rfl
  | cons c m ih =>
    obtain ⟨k, b⟩ := c
    have h' := Memory.wfFrom_cons.mp h
    simp only [Memory.write]
    split
    · have hlt : a < k := ‹_›
      split
      · split
        · subst j
          rw [Memory.read_cons, if_neg (by omega), Memory.read_below h'.2.2 (by omega)]
          exact (‹v = unlisted›).symm
        · rfl
      · rw [Memory.read_cons]
        exact if_congr eq_comm rfl rfl
    · split
      · subst a
        split
        · split
          · subst j
            rw [Memory.read_below h'.2.2 (by omega)]
            exact (‹v = unlisted›).symm
          · rw [Memory.read_cons, if_neg (by omega)]
        · rw [Memory.read_cons, Memory.read_cons]
          by_cases hj : k = j
          · simp [hj]
          · simp [hj, Ne.symm hj]
      · rw [Memory.read_cons, Memory.read_cons, ih h'.2.2]
        by_cases hk : k = j
        · have : ¬ j = a := by omega
          simp [hk, this]
        · simp [hk]

/-- Read after write: the stored byte at its address, every other byte as before. -/
theorem Memory.read_write {m : Memory} (h : m.wf = true) (a j : Nat) (v : Byte) :
    (m.write a v).read j = if j = a then v else m.read j :=
  Memory.read_writeFrom h a j v

theorem Memory.ext_from {lo : Nat} {m m' : Memory} (h : Memory.wfFrom lo m = true)
    (h' : Memory.wfFrom lo m' = true) (hr : ∀ a, m.read a = m'.read a) : m = m' := by
  induction m generalizing lo m' with
  | nil =>
    cases m' with
    | nil => rfl
    | cons c m' =>
      obtain ⟨k, b⟩ := c
      have := hr k
      rw [Memory.read_cons, if_pos rfl] at this
      exact absurd this.symm (Memory.wfFrom_cons.mp h').2.1
  | cons c m ih =>
    obtain ⟨k, b⟩ := c
    have hk := Memory.wfFrom_cons.mp h
    cases m' with
    | nil =>
      have := hr k
      rw [Memory.read_cons, if_pos rfl] at this
      exact absurd this hk.2.1
    | cons c' m' =>
      obtain ⟨k', b'⟩ := c'
      have hk' := Memory.wfFrom_cons.mp h'
      have hkk : k = k' := by
        rcases Nat.lt_trichotomy k k' with hlt | heq | hgt
        · have := hr k
          rw [Memory.read_cons, if_pos rfl, Memory.read_cons, if_neg (by omega),
            Memory.read_below hk'.2.2 (by omega)] at this
          exact absurd this hk.2.1
        · exact heq
        · have := hr k'
          rw [Memory.read_cons, if_neg (by omega), Memory.read_below hk.2.2 (by omega),
            Memory.read_cons, if_pos rfl] at this
          exact absurd this.symm hk'.2.1
      subst hkk
      have hb : b = b' := by simpa [Memory.read_cons] using hr k
      subst hb
      congr 1
      refine ih hk.2.2 hk'.2.2 fun a => ?_
      by_cases ha : k = a
      · subst ha
        rw [Memory.read_below hk.2.2 (by omega), Memory.read_below hk'.2.2 (by omega)]
      · simpa [Memory.read_cons, ha] using hr a

/-- Equal memories are equal data: canonical memories that read the same everywhere are the same list. -/
theorem Memory.ext_read {m m' : Memory} (h : m.wf = true) (h' : m'.wf = true) (hr : ∀ a, m.read a = m'.read a) :
    m = m' :=
  Memory.ext_from h h' hr

@[simp] theorem Memory.below_nil (n : Nat) : Memory.below n [] = true := rfl

theorem Memory.below_cons {n k : Nat} {b : Byte} {m : Memory} :
    Memory.below n ((k, b) :: m) = true ↔ k < n ∧ m.below n = true := by
  simp [Memory.below]

/-- A store below `n` keeps every listed address below `n`. -/
theorem Memory.below_write {n a : Nat} {v : Byte} {m : Memory} (h : m.below n = true) (ha : a < n) :
    (m.write a v).below n = true := by
  induction m with
  | nil =>
    simp only [Memory.write]
    split
    · rfl
    · exact Memory.below_cons.mpr ⟨ha, rfl⟩
  | cons c m ih =>
    obtain ⟨k, b⟩ := c
    have h' := Memory.below_cons.mp h
    simp only [Memory.write]
    split
    · split
      · exact h
      · exact Memory.below_cons.mpr ⟨ha, h⟩
    · split
      · split
        · exact h'.2
        · exact Memory.below_cons.mpr ⟨ha, h'.2⟩
      · exact Memory.below_cons.mpr ⟨h'.1, ih h'.2⟩

/-- Beyond its bound a memory lists nothing. -/
theorem Memory.read_of_below {n a : Nat} {m : Memory} (h : m.below n = true) (ha : n ≤ a) : m.read a = unlisted := by
  induction m with
  | nil => rfl
  | cons c m ih =>
    obtain ⟨k, b⟩ := c
    have h' := Memory.below_cons.mp h
    rw [Memory.read_cons, if_neg (by omega), ih h'.2]

theorem Memory.wf_update {m : Memory} (h : m.wf = true) (i : Nat) (f : Byte → Byte) : (m.update i f).wf = true :=
  Memory.wf_write h i _

theorem Memory.read_update {m : Memory} (h : m.wf = true) (i j : Nat) (f : Byte → Byte) :
    (m.update i f).read j = if j = i then f (m.read j) else m.read j := by
  rw [Memory.update, Memory.read_write h]
  split
  · subst j; rfl
  · rfl

theorem Memory.below_update {n i : Nat} {m : Memory} (h : m.below n = true) (hi : i < n) (f : Byte → Byte) :
    (m.update i f).below n = true :=
  Memory.below_write h hi

@[simp] theorem Memory.length_bytes (m : Memory) (n : Nat) : (m.bytes n).length = n := by
  simp [Memory.bytes]

theorem Memory.getElem_bytes (m : Memory) (n i : Nat) (h : i < n) : (m.bytes n)[i]? = some (m.read i) := by
  simp [Memory.bytes, h]

end Sys2Proof.Machine
end

