-- ==== Sys2Proof/Laws/Cell.lean ====
section
/-! SUPPORT. What one cell, and a list of cells, does to the framebuffer (spec/40_common_pipeline.md R63 to R65). -/

namespace Sys2Proof.Machine

/-- A cell of a plan that lands where R60 says: page-row -1 to `LASTPAGE`, a column of the screen. -/
abbrev Plan.Lands (p : Params) (pl : Plan) (cell : Nat × Nat) : Prop :=
  (-1 ≤ pl.clip.startPage + cell.1 ∧ pl.clip.startPage + cell.1 ≤ p.lastPage) ∧
    0 ≤ pl.x + cell.2 ∧ pl.x + cell.2 < p.width

/-- The cell covers pixel `(X, Y)`: `X` is its column and `Y` one of the 8 rows its byte is shifted to. -/
abbrev Plan.Hits (pl : Plan) (cell : Nat × Nat) (X Y : Nat) : Prop :=
  pl.x + cell.2 = X ∧ 8 * (pl.clip.startPage + cell.1) + pl.clip.yOffset ≤ Y ∧
    (Y : Int) < 8 * (pl.clip.startPage + cell.1) + pl.clip.yOffset + 8

/-- The row of a cell's byte that falls on framebuffer row `Y`. -/
def Plan.rowIn (pl : Plan) (cell : Nat × Nat) (Y : Nat) : Nat :=
  (Y - (8 * (pl.clip.startPage + cell.1) + pl.clip.yOffset)).toNat

theorem index_inj {W a a' b b' : Nat} (hb : b < W) (hb' : b' < W) :
    a * W + b = a' * W + b' ↔ a = a' ∧ b = b' := by
  constructor
  · intro h
    have hW : 0 < W := by omega
    have h1 := congrArg (· / W) h
    simp only [Nat.mul_comm _ W, Nat.mul_add_div hW, Nat.div_eq_of_lt hb, Nat.div_eq_of_lt hb', Nat.add_zero] at h1
    subst h1
    exact ⟨rfl, by omega⟩
  · rintro ⟨rfl, rfl⟩; rfl

theorem fbIndex_eq {p : Params} {page col : Int} (h : 0 ≤ page) (hc : 0 ≤ col) :
    fbIndex p page col = page.toNat * p.width + col.toNat := by
  obtain ⟨a, rfl⟩ := Int.eq_ofNat_of_zero_le h
  obtain ⟨b, rfl⟩ := Int.eq_ofNat_of_zero_le hc
  simp only [fbIndex, Int.toNat_natCast]
  norm_cast

/-- A landing page-row and column give an index inside the framebuffer (spec/20_memory.md R22). -/
theorem fbIndex_lt {p : Params} {page col : Int} (h : 0 ≤ page) (hl : page ≤ p.lastPage) (hc : 0 ≤ col)
    (hw : col < p.width) : fbIndex p page col < p.fbSize := by
  rw [fbIndex_eq h hc]
  unfold Params.fbSize
  unfold Params.lastPage at hl
  have h1 : page.toNat + 1 ≤ p.npages := by omega
  have h2 : col.toNat < p.width := by omega
  calc page.toNat * p.width + col.toNat < (page.toNat + 1) * p.width := by rw [Nat.add_mul]; omega
    _ ≤ p.npages * p.width := Nat.mul_le_mul_right _ h1
    _ = p.width * p.npages := Nat.mul_comm _ _

/-- Reading a pixel after one merge: the byte at the merged index is merged, every other kept. -/
theorem pixel_update {p : Params} {fb : Memory} (hfb : fb.wf = true) {page col : Int} (h : 0 ≤ page) (hc : 0 ≤ col)
    (hw : col < p.width) {X Y : Nat} (hX : X < p.width) (f : Byte → Byte) :
    pixel p (fb.update (fbIndex p page col) f) X Y =
      if page = (Y / 8 : Nat) ∧ col = X then (f (fb.read (Y / 8 * p.width + X))).getLsbD (Y % 8)
      else pixel p fb X Y := by
  have key : Y / 8 * p.width + X = fbIndex p page col ↔ page = (Y / 8 : Nat) ∧ col = X := by
    rw [fbIndex_eq h hc, index_inj hX (by omega)]
    omega
  unfold pixel
  rw [Memory.read_update hfb]
  by_cases hk : page = (Y / 8 : Nat) ∧ col = X
  · rw [if_pos (key.mpr hk), if_pos hk]
  · rw [if_neg (mt key.mp hk), if_neg hk]

theorem wf_mergeLow {p : Params} {assets : Memory} {pl : Plan} {pr c : Nat} {fb : Memory} (hfb : fb.wf = true) :
    (mergeLow p assets pl pr c fb).wf = true := by
  unfold mergeLow
  split
  · exact Memory.wf_update hfb _ _
  · exact hfb

theorem wf_drawCell {p : Params} {assets : Memory} {pl : Plan} {fb : Memory} (hfb : fb.wf = true) (cell : Nat × Nat) :
    (drawCell p assets pl fb cell).wf = true := by
  unfold drawCell mergeHigh
  split
  · exact Memory.wf_update (wf_mergeLow hfb) _ _
  · exact wf_mergeLow hfb

/-- The low half (R63): bits `yOffset .. 7` of the byte in the cell's own page-row. -/
theorem pixel_mergeLow {p : Params} {assets : Memory} {pl : Plan} {fb : Memory} (hfb : fb.wf = true) {pr c : Nat}
    (hl : pl.Lands p (pr, c)) {X Y : Nat} (hX : X < p.width) :
    pixel p (mergeLow p assets pl pr c fb) X Y =
      if pl.clip.startPage + pr = (Y / 8 : Nat) ∧ pl.x + c = X ∧ pl.clip.yOffset ≤ Y % 8 then
        mergeBit pl.mode (pixel p fb X Y) ((imageByte pl assets pr c).getLsbD (Y % 8 - pl.clip.yOffset))
          ((maskByte pl assets pr c).getLsbD (Y % 8 - pl.clip.yOffset))
      else pixel p fb X Y := by
  have hm : Y % 8 < 8 := Nat.mod_lt _ (by decide)
  unfold mergeLow
  by_cases h0 : 0 ≤ pl.clip.startPage + pr
  · rw [if_pos h0, pixel_update hfb h0 hl.2.1 hl.2.2 hX, getLsbD_merge _ _ _ _ hm, getLsbD_lo8 _ _ hm,
      getLsbD_lo8 _ _ hm]
    by_cases hat : pl.clip.startPage + pr = (Y / 8 : Nat) ∧ pl.x + c = X
    · by_cases hbit : pl.clip.yOffset ≤ Y % 8
      · simp [hat, hbit, pixel]
      · simp [hat, hbit, pixel]
    · rw [if_neg hat, if_neg (fun hh => hat ⟨hh.1, hh.2.1⟩)]
  · rw [if_neg h0, if_neg (by omega)]

/-- The high half (R64): bits `0 .. yOffset-1` of the byte one page-row below. -/
theorem pixel_mergeHigh {p : Params} {assets : Memory} {pl : Plan} {fb : Memory} (hfb : fb.wf = true)
    (hn : pl.clip.yOffset < 8) {pr c : Nat} (hl : pl.Lands p (pr, c)) {X Y : Nat} (hX : X < p.width)
    (hY : Y < 8 * p.npages) :
    pixel p (mergeHigh p assets pl pr c fb) X Y =
      if pl.clip.startPage + pr + 1 = (Y / 8 : Nat) ∧ pl.x + c = X ∧ Y % 8 < pl.clip.yOffset then
        mergeBit pl.mode (pixel p fb X Y) ((imageByte pl assets pr c).getLsbD (8 + Y % 8 - pl.clip.yOffset))
          ((maskByte pl assets pr c).getLsbD (8 + Y % 8 - pl.clip.yOffset))
      else pixel p fb X Y := by
  have hm : Y % 8 < 8 := Nat.mod_lt _ (by decide)
  have h1 : 0 ≤ pl.clip.startPage + pr + 1 := by have := hl.1.1; omega
  unfold mergeHigh
  by_cases hg : pl.clip.yOffset ≠ 0 ∧ pl.clip.startPage + pr < p.lastPage
  · rw [if_pos hg, pixel_update hfb h1 hl.2.1 hl.2.2 hX, getLsbD_merge _ _ _ _ hm,
      getLsbD_hi8 _ (by omega) hm, getLsbD_hi8 _ (by omega) hm]
    by_cases hat : pl.clip.startPage + pr + 1 = (Y / 8 : Nat) ∧ pl.x + c = X
    · by_cases hbit : Y % 8 < pl.clip.yOffset
      · simp [hat, hbit, pixel]
      · have hs : ∀ b : Byte, b.getLsbD (8 + Y % 8 - pl.clip.yOffset) = false :=
          fun b => BitVec.getLsbD_of_ge b _ (by omega)
        rw [if_pos hat, if_neg (fun hh => hbit hh.2.2), hs, hs, mergeBit_false, pixel]
    · rw [if_neg hat, if_neg (fun hh => hat ⟨hh.1, hh.2.1⟩)]
  · rw [if_neg hg, if_neg]
    unfold Params.lastPage at hg
    omega

/-- One cell changes exactly the pixels its shifted byte covers, by its mode's operator; the high half "independently of
whether step 3 ran" (R64). -/
theorem pixel_drawCell {p : Params} {assets : Memory} {pl : Plan} {fb : Memory} (hfb : fb.wf = true)
    (hn : pl.clip.yOffset < 8) {cell : Nat × Nat} (hl : pl.Lands p cell) {X Y : Nat} (hX : X < p.width)
    (hY : Y < 8 * p.npages) :
    pixel p (drawCell p assets pl fb cell) X Y =
      if pl.Hits cell X Y then
        mergeBit pl.mode (pixel p fb X Y) ((imageByte pl assets cell.1 cell.2).getLsbD (pl.rowIn cell Y))
          ((maskByte pl assets cell.1 cell.2).getLsbD (pl.rowIn cell Y))
      else pixel p fb X Y := by
  obtain ⟨pr, c⟩ := cell
  unfold drawCell
  rw [pixel_mergeHigh (wf_mergeLow hfb) hn hl hX hY, pixel_mergeLow hfb hl hX]
  by_cases hlow : pl.clip.startPage + pr = (Y / 8 : Nat) ∧ pl.x + c = X ∧ pl.clip.yOffset ≤ Y % 8
  · rw [if_neg (by omega), if_pos hlow, if_pos (by omega)]
    have : pl.rowIn (pr, c) Y = Y % 8 - pl.clip.yOffset := by unfold Plan.rowIn; omega
    rw [this]
  · by_cases hhigh : pl.clip.startPage + pr + 1 = (Y / 8 : Nat) ∧ pl.x + c = X ∧ Y % 8 < pl.clip.yOffset
    · rw [if_pos hhigh, if_neg hlow, if_pos (by omega)]
      have : pl.rowIn (pr, c) Y = 8 + Y % 8 - pl.clip.yOffset := by unfold Plan.rowIn; omega
      rw [this]
    · rw [if_neg hhigh, if_neg hlow, if_neg (by omega)]

/-- No two cells cover the same pixel ("Each framebuffer pixel is the target of at most one `(c, r)`", R67). -/
theorem Plan.Hits.unique {pl : Plan} {cell cell' : Nat × Nat} {X Y : Nat} (h : pl.Hits cell X Y)
    (h' : pl.Hits cell' X Y) : cell = cell' := by
  obtain ⟨a, b⟩ := cell
  obtain ⟨a', b'⟩ := cell'
  have h1 : a = a' := by omega
  have h2 : b = b' := by omega
  rw [h1, h2]

theorem wf_foldl_drawCell {p : Params} {assets : Memory} {pl : Plan} (L : List (Nat × Nat)) {fb : Memory}
    (hfb : fb.wf = true) : (L.foldl (drawCell p assets pl) fb).wf = true := by
  induction L generalizing fb with
  | nil => exact hfb
  | cons cell L ih => exact ih (wf_drawCell hfb cell)

/-- A pixel no cell covers keeps its value. -/
theorem pixel_foldl_miss {p : Params} {assets : Memory} {pl : Plan} (hn : pl.clip.yOffset < 8) {X Y : Nat}
    (hX : X < p.width) (hY : Y < 8 * p.npages) (L : List (Nat × Nat)) (hL : ∀ cell ∈ L, pl.Lands p cell)
    (hmiss : ∀ cell ∈ L, ¬ pl.Hits cell X Y) {fb : Memory} (hfb : fb.wf = true) :
    pixel p (L.foldl (drawCell p assets pl) fb) X Y = pixel p fb X Y := by
  induction L generalizing fb with
  | nil => rfl
  | cons cell L ih =>
    rw [List.foldl_cons, ih (fun d hd => hL d (by simp [hd])) (fun d hd => hmiss d (by simp [hd])) (wf_drawCell hfb _),
      pixel_drawCell hfb hn (hL cell (by simp)) hX hY, if_neg (hmiss cell (by simp))]

/-- A pixel that one of the cells covers is merged once, with the old pixel, wherever in the list its cell stands. -/
theorem pixel_foldl_hit {p : Params} {assets : Memory} {pl : Plan} (hn : pl.clip.yOffset < 8) {X Y : Nat}
    (hX : X < p.width) (hY : Y < 8 * p.npages) (L : List (Nat × Nat)) (hL : ∀ cell ∈ L, pl.Lands p cell)
    (hnd : L.Nodup) {cell : Nat × Nat} (hmem : cell ∈ L) (hhit : pl.Hits cell X Y) {fb : Memory}
    (hfb : fb.wf = true) :
    pixel p (L.foldl (drawCell p assets pl) fb) X Y =
      mergeBit pl.mode (pixel p fb X Y) ((imageByte pl assets cell.1 cell.2).getLsbD (pl.rowIn cell Y))
        ((maskByte pl assets cell.1 cell.2).getLsbD (pl.rowIn cell Y)) := by
  induction L generalizing fb with
  | nil => simp at hmem
  | cons d L ih =>
    have hnd' := List.nodup_cons.mp hnd
    have hL' : ∀ e ∈ L, pl.Lands p e := fun e he => hL e (by simp [he])
    rw [List.foldl_cons]
    rcases List.mem_cons.mp hmem with rfl | htail
    · rw [pixel_foldl_miss hn hX hY L hL' (fun e he hh => hnd'.1 (hhit.unique hh ▸ he)) (wf_drawCell hfb _),
        pixel_drawCell hfb hn (hL cell (by simp)) hX hY, if_pos hhit]
    · have hne : ¬ pl.Hits d X Y := fun hh => hnd'.1 (hh.unique hhit ▸ htail)
      rw [ih hL' hnd'.2 htail (wf_drawCell hfb _), pixel_drawCell hfb hn (hL d (by simp)) hX hY, if_neg hne]

theorem read_drawCell_of_not_stored {p : Params} {assets : Memory} {pl : Plan} {fb : Memory} (hfb : fb.wf = true)
    {cell : Nat × Nat} {j : Nat} (hj : ¬ cellStoresTo p pl cell j) :
    (drawCell p assets pl fb cell).read j = fb.read j := by
  have hlow : (mergeLow p assets pl cell.1 cell.2 fb).read j = fb.read j := by
    unfold mergeLow
    split
    · rw [Memory.read_update hfb, if_neg]
      exact fun h => hj (.inl ⟨‹_›, h⟩)
    · rfl
  unfold drawCell mergeHigh
  split
  · rename_i hg
    rw [Memory.read_update (wf_mergeLow hfb), if_neg, hlow]
    exact fun h => hj (.inr ⟨hg.1, hg.2, h⟩)
  · exact hlow

/-- A byte no cell stores to keeps its value. -/
theorem read_foldl_of_not_stored {p : Params} {assets : Memory} {pl : Plan} (L : List (Nat × Nat)) {j : Nat}
    (hj : ∀ cell ∈ L, ¬ cellStoresTo p pl cell j) {fb : Memory} (hfb : fb.wf = true) :
    (L.foldl (drawCell p assets pl) fb).read j = fb.read j := by
  induction L generalizing fb with
  | nil => rfl
  | cons cell L ih =>
    rw [List.foldl_cons, ih (fun d hd => hj d (by simp [hd])) (wf_drawCell hfb _),
      read_drawCell_of_not_stored hfb (hj cell (by simp))]

theorem cellStoresTo_lt {p : Params} {pl : Plan} {cell : Nat × Nat} (hl : pl.Lands p cell) {j : Nat}
    (hj : cellStoresTo p pl cell j) : j < p.fbSize := by
  rcases hj with ⟨h0, rfl⟩ | ⟨-, hlt, rfl⟩
  · exact fbIndex_lt h0 hl.1.2 hl.2.1 hl.2.2
  · exact fbIndex_lt (by have := hl.1.1; omega) (by omega) hl.2.1 hl.2.2

theorem below_drawCell {p : Params} {assets : Memory} {pl : Plan} {fb : Memory} (hb : fb.below p.fbSize = true)
    {cell : Nat × Nat} (hl : pl.Lands p cell) : (drawCell p assets pl fb cell).below p.fbSize = true := by
  have hlow : (mergeLow p assets pl cell.1 cell.2 fb).below p.fbSize = true := by
    unfold mergeLow
    split
    · exact Memory.below_update hb (cellStoresTo_lt hl (.inl ⟨‹_›, rfl⟩)) _
    · exact hb
  unfold drawCell mergeHigh
  split
  · rename_i hg
    exact Memory.below_update hlow (cellStoresTo_lt hl (.inr ⟨hg.1, hg.2, rfl⟩)) _
  · exact hlow

theorem below_foldl_drawCell {p : Params} {assets : Memory} {pl : Plan} (L : List (Nat × Nat))
    (hL : ∀ cell ∈ L, pl.Lands p cell) {fb : Memory} (hb : fb.below p.fbSize = true) :
    (L.foldl (drawCell p assets pl) fb).below p.fbSize = true := by
  induction L generalizing fb with
  | nil => exact hb
  | cons cell L ih => exact ih (fun d hd => hL d (by simp [hd])) (below_drawCell hb (hL cell (by simp)))

end Sys2Proof.Machine
end

