-- ==== Sys2Proof/Laws/State.lean ====
section
/-! SUPPORT. One lemma per field per update of State, true by rfl, so that no later proof unfolds a record update. -/

namespace Sys2Proof.Machine

variable (s : State)

/-! ### `setFb` -/

@[simp] theorem State.setFb_params (m : Memory) : (s.setFb m).params = s.params := rfl
@[simp] theorem State.setFb_fb (m : Memory) : (s.setFb m).fb = m := rfl
@[simp] theorem State.setFb_assets (m : Memory) : (s.setFb m).assets = s.assets := rfl
@[simp] theorem State.setFb_cmd (m : Memory) : (s.setFb m).cmd = s.cmd := rfl
@[simp] theorem State.setFb_status (m : Memory) : (s.setFb m).status = s.status := rfl
@[simp] theorem State.setFb_host (m : Memory) : (s.setFb m).host = s.host := rfl
@[simp] theorem State.setFb_response (m : Memory) : (s.setFb m).response = s.response := rfl
@[simp] theorem State.setFb_self : s.setFb s.fb = s := rfl
@[simp] theorem State.setFb_setFb (m m' : Memory) : (s.setFb m).setFb m' = s.setFb m' := rfl

/-! ### `setAssets` -/

@[simp] theorem State.setAssets_params (m : Memory) : (s.setAssets m).params = s.params := rfl
@[simp] theorem State.setAssets_fb (m : Memory) : (s.setAssets m).fb = s.fb := rfl
@[simp] theorem State.setAssets_assets (m : Memory) : (s.setAssets m).assets = m := rfl
@[simp] theorem State.setAssets_cmd (m : Memory) : (s.setAssets m).cmd = s.cmd := rfl
@[simp] theorem State.setAssets_status (m : Memory) : (s.setAssets m).status = s.status := rfl
@[simp] theorem State.setAssets_host (m : Memory) : (s.setAssets m).host = s.host := rfl
@[simp] theorem State.setAssets_response (m : Memory) : (s.setAssets m).response = s.response := rfl
@[simp] theorem State.setAssets_self : s.setAssets s.assets = s := rfl
@[simp] theorem State.setAssets_setAssets (m m' : Memory) : (s.setAssets m).setAssets m' = s.setAssets m' := rfl

/-! ### `setCmd` -/

@[simp] theorem State.setCmd_params (d : Descriptor) : (s.setCmd d).params = s.params := rfl
@[simp] theorem State.setCmd_fb (d : Descriptor) : (s.setCmd d).fb = s.fb := rfl
@[simp] theorem State.setCmd_assets (d : Descriptor) : (s.setCmd d).assets = s.assets := rfl
@[simp] theorem State.setCmd_cmd (d : Descriptor) : (s.setCmd d).cmd = d := rfl
@[simp] theorem State.setCmd_status (d : Descriptor) : (s.setCmd d).status = s.status := rfl
@[simp] theorem State.setCmd_host (d : Descriptor) : (s.setCmd d).host = s.host := rfl
@[simp] theorem State.setCmd_response (d : Descriptor) : (s.setCmd d).response = s.response := rfl
@[simp] theorem State.setCmd_self : s.setCmd s.cmd = s := rfl
@[simp] theorem State.setCmd_setCmd (d d' : Descriptor) : (s.setCmd d).setCmd d' = s.setCmd d' := rfl

/-! ### `setStatus` -/

@[simp] theorem State.setStatus_params (v : Word) : (s.setStatus v).params = s.params := rfl
@[simp] theorem State.setStatus_fb (v : Word) : (s.setStatus v).fb = s.fb := rfl
@[simp] theorem State.setStatus_assets (v : Word) : (s.setStatus v).assets = s.assets := rfl
@[simp] theorem State.setStatus_cmd (v : Word) : (s.setStatus v).cmd = s.cmd := rfl
@[simp] theorem State.setStatus_status (v : Word) : (s.setStatus v).status = v := rfl
@[simp] theorem State.setStatus_host (v : Word) : (s.setStatus v).host = s.host := rfl
@[simp] theorem State.setStatus_response (v : Word) : (s.setStatus v).response = s.response := rfl
@[simp] theorem State.setStatus_self : s.setStatus s.status = s := rfl
@[simp] theorem State.setStatus_setStatus (v v' : Word) : (s.setStatus v).setStatus v' = s.setStatus v' := rfl

/-! ### `setHost` -/

@[simp] theorem State.setHost_params (l : List Action) : (s.setHost l).params = s.params := rfl
@[simp] theorem State.setHost_fb (l : List Action) : (s.setHost l).fb = s.fb := rfl
@[simp] theorem State.setHost_assets (l : List Action) : (s.setHost l).assets = s.assets := rfl
@[simp] theorem State.setHost_cmd (l : List Action) : (s.setHost l).cmd = s.cmd := rfl
@[simp] theorem State.setHost_status (l : List Action) : (s.setHost l).status = s.status := rfl
@[simp] theorem State.setHost_host (l : List Action) : (s.setHost l).host = l := rfl
@[simp] theorem State.setHost_response (l : List Action) : (s.setHost l).response = s.response := rfl
@[simp] theorem State.setHost_self : s.setHost s.host = s := rfl
@[simp] theorem State.setHost_setHost (l l' : List Action) : (s.setHost l).setHost l' = s.setHost l' := rfl

/-! ### `setResponse` -/

@[simp] theorem State.setResponse_params (r : Response) : (s.setResponse r).params = s.params := rfl
@[simp] theorem State.setResponse_fb (r : Response) : (s.setResponse r).fb = s.fb := rfl
@[simp] theorem State.setResponse_assets (r : Response) : (s.setResponse r).assets = s.assets := rfl
@[simp] theorem State.setResponse_cmd (r : Response) : (s.setResponse r).cmd = s.cmd := rfl
@[simp] theorem State.setResponse_status (r : Response) : (s.setResponse r).status = s.status := rfl
@[simp] theorem State.setResponse_host (r : Response) : (s.setResponse r).host = s.host := rfl
@[simp] theorem State.setResponse_response (r : Response) : (s.setResponse r).response = r := rfl
@[simp] theorem State.setResponse_self : s.setResponse s.response = s := rfl
@[simp] theorem State.setResponse_setResponse (r r' : Response) : (s.setResponse r).setResponse r' = s.setResponse r' := rfl

/-! ### `raiseFault` and `resetBlock` -/

variable (code : FaultCode)

@[simp] theorem raiseFault_params : (raiseFault code s).params = s.params := rfl
@[simp] theorem raiseFault_fb : (raiseFault code s).fb = s.fb := rfl
@[simp] theorem raiseFault_assets : (raiseFault code s).assets = s.assets := rfl
@[simp] theorem raiseFault_cmd : (raiseFault code s).cmd = s.cmd := rfl
@[simp] theorem raiseFault_status : (raiseFault code s).status = latch code s.status := rfl
@[simp] theorem raiseFault_host : (raiseFault code s).host = s.host := rfl
@[simp] theorem raiseFault_response : (raiseFault code s).response = s.response := rfl
@[simp] theorem resetBlock_params : (resetBlock s).params = s.params := rfl
@[simp] theorem resetBlock_fb : (resetBlock s).fb = [] := rfl
@[simp] theorem resetBlock_assets : (resetBlock s).assets = s.assets := rfl
@[simp] theorem resetBlock_cmd : (resetBlock s).cmd = { cmd0 := 0, cmd1 := 0, cmd2 := 0, cmd3 := 0 } := rfl
@[simp] theorem resetBlock_status : (resetBlock s).status = 0 := rfl
@[simp] theorem resetBlock_host : (resetBlock s).host = s.host := rfl
@[simp] theorem resetBlock_response : (resetBlock s).response = s.response := rfl

end Sys2Proof.Machine
end

