-- ==== Sys2Proof/Laws/Draw.lean ====
section
/-! SUPPORT. What a draw can do, said once: the ends of the stages of spec/40_common_pipeline.md R50, and the picture a
completed traversal leaves (R67). -/

namespace Sys2Proof.Machine

variable {p : Params} {assets : Memory} {r : Request} {hd : Header} {s : State}

/-! ### The header (R51) -/

theorem readHeader_ok_iff {bptr : Nat} :
    readHeader p assets bptr = .ok hd ↔
      bptr + 1 < p.assetSize ∧ (assets.read bptr).toNat = hd.w ∧ (assets.read (bptr + 1)).toNat = hd.h ∧
        hd.w ≠ 0 ∧ hd.h ≠ 0 := by
  obtain ⟨w, h⟩ := hd
  unfold readHeader
  split
  · simp only [reduceCtorEq, false_iff]; omega
  · split
    · rename_i h0
      simp only [reduceCtorEq, false_iff]
      rintro ⟨-, rfl, rfl, h1, h2⟩
      exact h0.elim h1 h2
    · rename_i h0
      simp only [Except.ok.injEq, Header.mk.injEq]
      constructor
      · rintro ⟨rfl, rfl⟩
        exact ⟨by omega, rfl, rfl, fun h => h0 (.inl h), fun h => h0 (.inr h)⟩
      · rintro ⟨-, rfl, rfl, -⟩
        exact ⟨rfl, rfl⟩

theorem readHeader_of_headerAt {bptr w h : Nat} (hh : HeaderAt p assets bptr w h) :
    readHeader p assets bptr = .ok ⟨w, h⟩ :=
  readHeader_ok_iff.mpr ⟨hh.2.1, hh.2.2.1, hh.2.2.2.1, hh.2.2.2.2.1, hh.2.2.2.2.2⟩

theorem readHeader_error {bptr : Nat} {code : FaultCode} (h : readHeader p assets bptr = .error code) :
    code = .assetRange ∨ code = .badHeader := by
  unfold readHeader at h
  split at h
  · exact .inl (Except.error.inj h).symm
  · split at h
    · exact .inr (Except.error.inj h).symm
    · exact absurd h (by simp)

/-! ### The stages (R50, R85) -/

/-- A draw that passes the stages: where its plan comes from, and what each stage has established. -/
theorem verdict_draw {pl : Plan} (h : verdict p assets r = .draw pl) :
    ∃ hd : Header, HeaderAt p assets r.bptr hd.w hd.h ∧ offScreen p r.x r.y hd.w hd.h = false ∧
      maskMissing (resolveMode r.mode r.mptr) r.mptr = false ∧ outOfRange p pl = false ∧ pl = planOf p r hd := by
  unfold verdict at h
  split at h
  · exact absurd h (by simp)
  · rename_i hb
    split at h
    · exact absurd h (by simp)
    · rename_i hd hok
      split_ifs at h with h1 h2 h3
      obtain rfl := Verdict.draw.inj h
      exact ⟨hd, ⟨hb, readHeader_ok_iff.mp hok⟩, by simpa using h1, by simpa using h2, by simpa using h3, rfl⟩

/-- The stages after a readable header, in their order. -/
theorem verdict_of_header {w h : Nat} (hh : HeaderAt p assets r.bptr w h) :
    verdict p assets r =
      if offScreen p r.x r.y w h then .skipped
      else if maskMissing (resolveMode r.mode r.mptr) r.mptr then .fault .nullMask
      else if outOfRange p (planOf p r ⟨w, h⟩) then .fault .assetRange
      else .draw (planOf p r ⟨w, h⟩) := by
  unfold verdict
  rw [if_neg hh.1, readHeader_of_headerAt hh]

/-- The stages when no header is readable: the bitmap reference alone decides (R85, items 2 to 4). -/
theorem verdict_of_no_header (hh : ∀ w h, ¬ HeaderAt p assets r.bptr w h) :
    verdict p assets r =
      if r.bptr = 0 then .skipped
      else if p.assetSize ≤ r.bptr + 1 then .fault .assetRange
      else .fault .badHeader := by
  unfold verdict readHeader
  by_cases h0 : r.bptr = 0
  · simp only [h0, if_true]
  · by_cases h1 : p.assetSize ≤ r.bptr + 1
    · simp only [h0, h1, if_true, if_false]
    · by_cases h2 : (assets.read r.bptr).toNat = 0 ∨ (assets.read (r.bptr + 1)).toNat = 0
      · simp only [h0, h1, h2, if_true, if_false]
      · exact absurd ⟨h0, by omega, rfl, rfl, fun h => h2 (.inl h), fun h => h2 (.inr h)⟩ (hh _ _)

/-! ### The draw (R80, R84, R65) -/

/-- Everything a draw can answer: always a next state, in which only the framebuffer or only `STATUS` is changed. -/
theorem draw_cases (r : Request) (s : State) :
    (verdict s.params s.assets r = .skipped ∧ draw r s = .next s) ∨
    (∃ code, verdict s.params s.assets r = .fault code ∧ draw r s = .next (s.setStatus (latch code s.status))) ∨
    (∃ pl, verdict s.params s.assets r = .draw pl ∧
      draw r s = .next (s.setFb (compose s.params s.assets pl s.fb))) := by
  unfold draw
  cases h : verdict s.params s.assets r with
  | skipped => exact .inl ⟨rfl, rfl⟩
  | fault code => exact .inr (.inl ⟨code, rfl, rfl⟩)
  | draw pl => exact .inr (.inr ⟨pl, rfl, rfl⟩)

/-- A draw whose header is readable: the rest of the stages (R85, items 5 to 8). -/
theorem draw_of_header {w h : Nat} (hh : HeaderAt s.params s.assets r.bptr w h) :
    draw r s =
      if offScreen s.params r.x r.y w h then .next s
      else if maskMissing (resolveMode r.mode r.mptr) r.mptr then .next (raiseFault .nullMask s)
      else if outOfRange s.params (planOf s.params r ⟨w, h⟩) then .next (raiseFault .assetRange s)
      else .next (s.setFb (compose s.params s.assets (planOf s.params r ⟨w, h⟩) s.fb)) := by
  unfold draw
  rw [verdict_of_header hh]
  split_ifs <;> rfl

/-- A draw whose header is not readable. -/
theorem draw_of_no_header (hh : ∀ w h, ¬ HeaderAt s.params s.assets r.bptr w h) :
    draw r s =
      if r.bptr = 0 then .next s
      else if s.params.assetSize ≤ r.bptr + 1 then .next (raiseFault .assetRange s)
      else .next (raiseFault .badHeader s) := by
  unfold draw
  rw [verdict_of_no_header hh]
  split_ifs <;> rfl

/-- A draw that passes every stage completes. -/
theorem draw_completes {w h : Nat} (hh : HeaderAt s.params s.assets r.bptr w h) (hon : ¬ OffScreen s.params r.x r.y w h)
    (hnull : ¬ (resolveMode r.mode r.mptr = .externalMask ∧ r.mptr = 0))
    (himg : imgMax (planOf s.params r ⟨w, h⟩) < s.params.assetSize)
    (hmask : resolveMode r.mode r.mptr = .externalMask → maskMax (planOf s.params r ⟨w, h⟩) < s.params.assetSize) :
    draw r s = .next (s.setFb (compose s.params s.assets (planOf s.params r ⟨w, h⟩) s.fb)) := by
  have hr : ¬ outOfRange s.params (planOf s.params r ⟨w, h⟩) = true := by
    rw [outOfRange_iff]
    rintro (h1 | ⟨h1, h2⟩)
    · omega
    · exact absurd (hmask h1) (by omega)
  rw [draw_of_header hh, if_neg (mt offScreen_iff.mp hon), if_neg (mt maskMissing_iff.mp hnull), if_neg hr]

/-- Two traversals over the same cells are the same if each cell does the same. -/
theorem compose_congr {assets' : Memory} {pl pl' : Plan} (hclip : pl.clip = pl'.clip)
    (hcell : ∀ cell ∈ cells pl.clip, ∀ fb, drawCell p assets pl fb cell = drawCell p assets' pl' fb cell) (fb : Memory) :
    compose p assets pl fb = compose p assets' pl' fb := by
  unfold compose
  rw [← hclip]
  revert hcell
  induction cells pl.clip generalizing fb with
  | nil => intro _; rfl
  | cons d L ih =>
    intro hcell
    rw [List.foldl_cons, List.foldl_cons, hcell d (by simp), ih _ fun e he => hcell e (by simp [he])]

/-- One cell does the same under two plans that agree on where it lands and on what its two bytes do to any old byte. -/
theorem drawCell_congr {assets' : Memory} {pl pl' : Plan} (hclip : pl.clip = pl'.clip) (hx : pl.x = pl'.x)
    {cell : Nat × Nat}
    (hlo : ∀ old, merge pl.mode old (lo8 (shifted (imageByte pl assets cell.1 cell.2) pl.clip.yOffset))
        (lo8 (shifted (maskByte pl assets cell.1 cell.2) pl.clip.yOffset)) =
      merge pl'.mode old (lo8 (shifted (imageByte pl' assets' cell.1 cell.2) pl.clip.yOffset))
        (lo8 (shifted (maskByte pl' assets' cell.1 cell.2) pl.clip.yOffset)))
    (hhi : ∀ old, merge pl.mode old (hi8 (shifted (imageByte pl assets cell.1 cell.2) pl.clip.yOffset))
        (hi8 (shifted (maskByte pl assets cell.1 cell.2) pl.clip.yOffset)) =
      merge pl'.mode old (hi8 (shifted (imageByte pl' assets' cell.1 cell.2) pl.clip.yOffset))
        (hi8 (shifted (maskByte pl' assets' cell.1 cell.2) pl.clip.yOffset)))
    (fb : Memory) : drawCell p assets pl fb cell = drawCell p assets' pl' fb cell := by
  unfold drawCell mergeLow mergeHigh
  rw [← hclip, ← hx]
  simp only [hlo, hhi]

/-- Every cell of a plan lands on the framebuffer or one page-row above it (R60). -/
theorem planOf_lands {cell : Nat × Nat} (hc : cell ∈ cells (planOf p r hd).clip) :
    (planOf p r hd).Lands p cell := by
  have := mem_cells_clip.mp (show cell ∈ cells (clip p r.x r.y hd.w hd.h) from hc)
  exact ⟨this.1.2, this.2.2⟩

/-- The stored bytes stay inside the framebuffer (spec/20_memory.md R22). -/
theorem wf_compose {pl : Plan} {fb : Memory} (hfb : fb.wf = true) : (compose p assets pl fb).wf = true :=
  wf_foldl_drawCell _ hfb

theorem below_compose {fb : Memory} (hb : fb.below p.fbSize = true) :
    (compose p assets (planOf p r hd) fb).below p.fbSize = true :=
  below_foldl_drawCell _ (fun _ => planOf_lands) hb

/-- A pixel of the framebuffer is covered by a processed cell exactly when it lies in the sprite's page-granular
rectangle: clipping removes nothing that would be visible (R57, R59, R67). -/
theorem hits_iff_inSprite {X Y : Nat} (hX : X < p.width) (hY : Y < 8 * p.npages) (pr c : Nat) :
    ((pr, c) ∈ cells (planOf p r hd).clip ∧ (planOf p r hd).Hits (pr, c) X Y) ↔
      InSprite r.x r.y hd.w hd.h X Y ∧ c = ((X : Int) - r.x).toNat ∧ pr = ((Y : Int) - r.y).toNat / 8 := by
  have e := eight_startPage_add_yOffset r.y
  have hn := yOffset_lt r.y
  rw [show (planOf p r hd).clip = clip p r.x r.y hd.w hd.h from rfl, mem_cells_clip]
  simp only [Plan.Hits, planOf, clip_startPage, clip_yOffset, Params.lastPage, InSprite]
  constructor
  · rintro ⟨⟨h1, h2⟩, h3⟩; omega
  · rintro ⟨h1, rfl, rfl⟩; omega

/-- Completed traversal, pixel by pixel (R67): a covered pixel is merged with its own sprite and mask pixel, every other
pixel of the framebuffer and every byte outside it keeps its value. -/
theorem compose_drawn {fb : Memory} (hfb : fb.wf = true) :
    Drawn p fb (compose p assets (planOf p r hd) fb) r.x r.y hd.w hd.h fun c row old =>
      mergeBit (planOf p r hd).mode old ((imageByte (planOf p r hd) assets (row / 8) c).getLsbD (row % 8))
        ((maskByte (planOf p r hd) assets (row / 8) c).getLsbD (row % 8)) := by
  have hn : (planOf p r hd).clip.yOffset < 8 := yOffset_lt r.y
  constructor
  · intro X Y hX hY
    split
    · rename_i hin
      obtain ⟨hmem, hhit⟩ := (hits_iff_inSprite hX hY _ _).mpr ⟨hin, rfl, rfl⟩
      unfold compose
      rw [pixel_foldl_hit hn hX hY _ (fun _ => planOf_lands) (cells_nodup _) hmem hhit hfb]
      have e := eight_startPage_add_yOffset r.y
      have hrow : (planOf p r hd).rowIn (((Y : Int) - r.y).toNat / 8, ((X : Int) - r.x).toNat) Y =
          ((Y : Int) - r.y).toNat % 8 := by
        simp only [Plan.rowIn, planOf, clip_startPage, clip_yOffset]; omega
      rw [hrow]
    · rename_i hout
      exact pixel_foldl_miss hn hX hY _ (fun _ => planOf_lands)
        (fun cell hc hh => hout ((hits_iff_inSprite hX hY cell.1 cell.2).mp ⟨hc, hh⟩).1) hfb
  · intro j hj
    exact read_foldl_of_not_stored _ (fun cell hc hs => absurd (cellStoresTo_lt (planOf_lands hc) hs) (by omega)) hfb

end Sys2Proof.Machine
end

