-- ==== Sys2Proof/Laws/Encode.lean ====
section
/-! SUPPORT. The fields of a packed descriptor, one lemma each (spec/30_encoding.md R36). -/

namespace Sys2Proof

variable (mode : Nat) (x y : Int) (bitmap mask frame maskFrame : Nat)

theorem getLsbD_packDescriptor_cmd0 (i : Nat) :
    (packDescriptor mode x y bitmap mask frame maskFrame).cmd0.getLsbD i =
      if i < 3 then (BitVec.ofNat 3 mode).getLsbD i
      else if i - 3 < 5 then false
      else if i - 3 - 5 < 8 then (BitVec.ofNat 8 frame).getLsbD (i - 3 - 5)
      else if i - 3 - 5 - 8 < 8 then (BitVec.ofNat 8 maskFrame).getLsbD (i - 3 - 5 - 8)
      else false := by
  change (0#8 ++ BitVec.ofNat 8 maskFrame ++ BitVec.ofNat 8 frame ++ 0#5 ++ BitVec.ofNat 3 mode :
    BitVec (8 + 8 + 8 + 5 + 3)).getLsbD i = _
  simp only [BitVec.getLsbD_append, BitVec.getLsbD_zero]

theorem getLsbD_packDescriptor_cmd1 (i : Nat) :
    (packDescriptor mode x y bitmap mask frame maskFrame).cmd1.getLsbD i =
      if i < 16 then (BitVec.ofInt 16 x).getLsbD i else (BitVec.ofInt 16 y).getLsbD (i - 16) := by
  change (BitVec.ofInt 16 y ++ BitVec.ofInt 16 x : BitVec (16 + 16)).getLsbD i = _
  rw [BitVec.getLsbD_append]

@[simp] theorem packDescriptor_mode :
    (packDescriptor mode x y bitmap mask frame maskFrame).mode = BitVec.ofNat 3 mode := by
  refine BitVec.eq_of_getLsbD_eq fun i hi => ?_
  rw [Descriptor.mode, BitVec.getLsbD_extractLsb', getLsbD_packDescriptor_cmd0, Nat.zero_add, if_pos hi]
  simp [hi]

@[simp] theorem packDescriptor_rsv0 : (packDescriptor mode x y bitmap mask frame maskFrame).rsv0 = 0 := by
  refine BitVec.eq_of_getLsbD_eq fun i hi => ?_
  rw [Descriptor.rsv0, BitVec.getLsbD_extractLsb', getLsbD_packDescriptor_cmd0, if_neg (by omega), if_pos (by omega)]
  simp

@[simp] theorem packDescriptor_frame :
    (packDescriptor mode x y bitmap mask frame maskFrame).frame = frame % 256 := by
  have : (packDescriptor mode x y bitmap mask frame maskFrame).cmd0.extractLsb' 8 8 = BitVec.ofNat 8 frame := by
    refine BitVec.eq_of_getLsbD_eq fun i hi => ?_
    rw [BitVec.getLsbD_extractLsb', getLsbD_packDescriptor_cmd0, if_neg (by omega), if_neg (by omega),
      if_pos (by omega), show 8 + i - 3 - 5 = i by omega]
    simp [hi]
  rw [Descriptor.frame, this, BitVec.toNat_ofNat]

@[simp] theorem packDescriptor_maskFrame :
    (packDescriptor mode x y bitmap mask frame maskFrame).maskFrame = maskFrame % 256 := by
  have : (packDescriptor mode x y bitmap mask frame maskFrame).cmd0.extractLsb' 16 8 = BitVec.ofNat 8 maskFrame := by
    refine BitVec.eq_of_getLsbD_eq fun i hi => ?_
    rw [BitVec.getLsbD_extractLsb', getLsbD_packDescriptor_cmd0, if_neg (by omega), if_neg (by omega),
      if_neg (by omega), if_pos (by omega), show 16 + i - 3 - 5 - 8 = i by omega]
    simp [hi]
  rw [Descriptor.maskFrame, this, BitVec.toNat_ofNat]

@[simp] theorem packDescriptor_rsv1 : (packDescriptor mode x y bitmap mask frame maskFrame).rsv1 = 0 := by
  refine BitVec.eq_of_getLsbD_eq fun i hi => ?_
  rw [Descriptor.rsv1, BitVec.getLsbD_extractLsb', getLsbD_packDescriptor_cmd0, if_neg (by omega), if_neg (by omega),
    if_neg (by omega), if_neg (by omega)]
  simp

/-- A coordinate in range survives its 16-bit field (R38). -/
theorem toInt_ofInt_of_coordOk {v : Int} (h : coordOk v = true) : (BitVec.ofInt 16 v).toInt = v := by
  simp only [coordOk, Bool.and_eq_true, decide_eq_true_eq] at h
  rw [BitVec.toInt_ofInt, Int.bmod_def]
  omega

@[simp] theorem packDescriptor_x (hx : coordOk x = true) :
    (packDescriptor mode x y bitmap mask frame maskFrame).x = x := by
  refine Eq.trans (congrArg BitVec.toInt ?_) (toInt_ofInt_of_coordOk hx)
  refine BitVec.eq_of_getLsbD_eq fun i hi => ?_
  rw [BitVec.getLsbD_extractLsb', getLsbD_packDescriptor_cmd1, Nat.zero_add, if_pos hi]
  simp [hi]

@[simp] theorem packDescriptor_y (hy : coordOk y = true) :
    (packDescriptor mode x y bitmap mask frame maskFrame).y = y := by
  refine Eq.trans (congrArg BitVec.toInt ?_) (toInt_ofInt_of_coordOk hy)
  refine BitVec.eq_of_getLsbD_eq fun i hi => ?_
  rw [BitVec.getLsbD_extractLsb', getLsbD_packDescriptor_cmd1, if_neg (by omega), show 16 + i - 16 = i by omega]
  simp [hi]

@[simp] theorem packDescriptor_bitmapPtr :
    (packDescriptor mode x y bitmap mask frame maskFrame).bitmapPtr = bitmap % 2 ^ 32 := by
  simp [Descriptor.bitmapPtr, packDescriptor]

@[simp] theorem packDescriptor_maskPtr :
    (packDescriptor mode x y bitmap mask frame maskFrame).maskPtr = mask % 2 ^ 32 := by
  simp [Descriptor.maskPtr, packDescriptor]

/-! ### A descriptor read from its register words -/

variable (d : Descriptor)

/-- The bits that decide the command (the key of spec/30_encoding.md section 4): `MODE`, `RSV0` and `RSV1`. -/
theorem toNat_key : (d.cmd0 &&& 0xFF0000FF).toNat = d.mode.toNat + 8 * d.rsv0.toNat + 2 ^ 24 * d.rsv1.toNat := by
  have bits : ∀ (a : BitVec 8) (b : BitVec 5) (c : BitVec 3) (i : Nat),
      (a ++ 0#16 ++ b ++ c : BitVec 32).getLsbD i =
        if i < 3 then c.getLsbD i else if i - 3 < 5 then b.getLsbD (i - 3)
        else if i - 3 - 5 < 16 then false else a.getLsbD (i - 3 - 5 - 16) := by
    intro a b c i
    simp only [BitVec.getLsbD_append, BitVec.getLsbD_zero]
  have key : d.cmd0 &&& 0xFF0000FF#32 = (d.rsv1 ++ 0#16 ++ d.rsv0 ++ d.mode : BitVec 32) := by
    refine BitVec.eq_of_getLsbD_eq fun i hi => ?_
    have hk : ∀ i < 32, (0xFF0000FF#32).getLsbD i = (decide (i < 8) || decide (24 ≤ i)) := by decide
    rw [bits, BitVec.getLsbD_and, hk i hi]
    simp only [Descriptor.mode, Descriptor.rsv0, Descriptor.rsv1, BitVec.getLsbD_extractLsb']
    split
    · rw [Nat.zero_add, decide_eq_true (p := i < 8) (by omega), Bool.true_or, Bool.and_true,
        decide_eq_true (p := i < 3) ‹_›, Bool.true_and]
    · split
      · rw [show 3 + (i - 3) = i by omega, decide_eq_true (p := i < 8) (by omega), Bool.true_or, Bool.and_true,
          decide_eq_true (p := i - 3 < 5) ‹_›, Bool.true_and]
      · split
        · rw [decide_eq_false (p := i < 8) (by omega), decide_eq_false (p := 24 ≤ i) (by omega)]
          simp
        · rw [show 24 + (i - 3 - 5 - 16) = i by omega, decide_eq_false (p := i < 8) (by omega),
            decide_eq_true (p := 24 ≤ i) (by omega), decide_eq_true (p := i - 3 - 5 - 16 < 8) (by omega)]
          simp
  change (d.cmd0 &&& 0xFF0000FF#32).toNat = _
  rw [key]
  change (d.rsv1 ++ 0#16 ++ d.rsv0 ++ d.mode : BitVec (8 + 16 + 5 + 3)).toNat = _
  simp only [BitVec.toNat_append, BitVec.toNat_ofNat]
  rw [← Nat.shiftLeft_add_eq_or_of_lt (by simpa using d.mode.isLt),
    ← Nat.shiftLeft_add_eq_or_of_lt (by simpa using d.rsv0.isLt)]
  simp only [Nat.shiftLeft_eq]
  simp
  omega

theorem Descriptor.x_eq_sext16 : d.x = sext16 (d.cmd1.toNat % 65536) := by
  simp only [Descriptor.x, BitVec.toInt_eq_toNat_cond, BitVec.extractLsb'_toNat, sext16, Nat.shiftRight_zero]
  simp
  split <;> split <;> omega

theorem Descriptor.y_eq_sext16 : d.y = sext16 (d.cmd1.toNat / 65536) := by
  have := d.cmd1.isLt
  simp only [Descriptor.y, BitVec.toInt_eq_toNat_cond, BitVec.extractLsb'_toNat, sext16, Nat.shiftRight_eq_div_pow]
  simp
  split <;> split <;> omega

/-- A key of 7 or less leaves every reserved bit 0. -/
theorem reserved_of_key_le (h : (d.cmd0 &&& 0xFF0000FF).toNat ≤ 7) :
    d.rsv0 = 0 ∧ d.rsv1 = 0 ∧ d.mode.toNat = (d.cmd0 &&& 0xFF0000FF).toNat := by
  have hk := toNat_key d
  have hm := d.mode.isLt
  exact ⟨BitVec.eq_of_toNat_eq (by simp; omega), BitVec.eq_of_toNat_eq (by simp; omega), by omega⟩

end Sys2Proof
end

