-- ==== Sys2Proof/Laws/Status.lean ====
section
/-! SUPPORT. `STATUS` and the fault latch (spec/10_state.md R13, spec/60_exceptions.md R84). -/

namespace Sys2Proof.Machine

/-- A fault already recorded is kept. -/
theorem latch_of_fault {code : FaultCode} {v : Word} (h : statusFault v = true) : latch code v = v := by
  simp [latch, h]

/-- The only legal value without a fault is 0. -/
theorem status_eq_zero {v : Word} (hl : statusLegal v = true) (h : statusFault v = false) : v = 0 := by
  simp only [statusLegal, h, Bool.and_eq_true, decide_eq_true_eq, Bool.false_eq_true, if_false] at hl
  obtain ⟨h1, h2⟩ := hl
  apply BitVec.eq_of_getLsbD_eq
  intro i hi
  have hcase : i = 0 ∨ (1 ≤ i ∧ i < 4) ∨ 4 ≤ i := by omega
  rcases hcase with rfl | ⟨ha, hb⟩ | ha
  · simpa [statusFault] using h
  · have := congrArg (fun b => b.getLsbD (i - 1)) h2
    simpa [statusCause, show i - 1 < 3 by omega, show 1 + (i - 1) = i by omega] using this
  · have := congrArg (fun b => b.getLsbD (i - 4)) h1
    simpa [statusReserved, show i - 4 < 28 by omega, show 4 + (i - 4) = i by omega] using this

/-- The value `STATUS` takes at the first fault, by code: 0x3, 0x5, 0x7, 0x9 (spec/95_test_vectors.md, conventions). -/
theorem latch_zero (code : FaultCode) :
    latch code 0 = match code with
      | .illegalCmd => 0x3
      | .assetRange => 0x5
      | .badHeader => 0x7
      | .nullMask => 0x9 := by
  cases code <;> decide

/-- Latching keeps `STATUS` legal. -/
theorem statusLegal_latch {code : FaultCode} {v : Word} (hl : statusLegal v = true) :
    statusLegal (latch code v) = true := by
  cases h : statusFault v with
  | true => rwa [latch_of_fault h]
  | false =>
    rw [status_eq_zero hl h]
    cases code <;> decide

/-- After a fault `FAULT` is 1. -/
@[simp] theorem statusFault_latch (code : FaultCode) (v : Word) : statusFault (latch code v) = true := by
  cases h : statusFault v with
  | true => rw [latch_of_fault h, h]
  | false =>
    rw [latch, h, if_neg (by decide)]
    rw [statusFault, BitVec.getLsbD_append, if_pos Nat.one_pos]
    rfl

end Sys2Proof.Machine
end

