-- ==== Sys2Proof/Laws/Exec.lean ====
section
/-! SUPPORT. Every command is the draw of its request; what it can answer, and the legal states it keeps. -/

namespace Sys2Proof.Machine

/-- The six meanings are one shared draw over their operands ("mode differs only in the merge operator and mask source",
spec/40_common_pipeline.md). -/
theorem exec_eq_draw (i : Instr) (s : State) : exec i s = draw (requestOf i) s := by
  cases i <;> rfl

/-- Everything a command can answer. -/
theorem exec_cases (i : Instr) (s : State) :
    (verdictOf i s = .skipped ∧ exec i s = .next s) ∨
    (∃ code, verdictOf i s = .fault code ∧ exec i s = .next (s.setStatus (latch code s.status))) ∨
    (∃ pl, verdictOf i s = .draw pl ∧ exec i s = .next (s.setFb (compose s.params s.assets pl s.fb))) := by
  rw [exec_eq_draw]
  exact draw_cases _ _

theorem exec_of_skipped {i : Instr} {s : State} (h : verdictOf i s = .skipped) : exec i s = .next s := by
  rcases exec_cases i s with ⟨-, h'⟩ | ⟨_, hv, -⟩ | ⟨_, hv, -⟩
  · exact h'
  · exact absurd (h.symm.trans hv) (by simp)
  · exact absurd (h.symm.trans hv) (by simp)

theorem exec_of_fault {i : Instr} {s : State} {code : FaultCode} (h : verdictOf i s = .fault code) :
    exec i s = .next (s.setStatus (latch code s.status)) := by
  rcases exec_cases i s with ⟨hv, -⟩ | ⟨_, hv, h'⟩ | ⟨_, hv, -⟩
  · exact absurd (h.symm.trans hv) (by simp)
  · rw [h', Verdict.fault.inj (h.symm.trans hv)]
  · exact absurd (h.symm.trans hv) (by simp)

theorem exec_of_draw {i : Instr} {s : State} {pl : Plan} (h : verdictOf i s = .draw pl) :
    exec i s = .next (s.setFb (compose s.params s.assets pl s.fb)) := by
  rcases exec_cases i s with ⟨hv, -⟩ | ⟨_, hv, -⟩ | ⟨_, hv, h'⟩
  · exact absurd (h.symm.trans hv) (by simp)
  · exact absurd (h.symm.trans hv) (by simp)
  · rw [h', Verdict.draw.inj (h.symm.trans hv)]

/-! How the stages end does not depend on the framebuffer or on `STATUS` (R48, spec/60_exceptions.md R88). -/

@[simp] theorem verdictOf_setFb (i : Instr) (s : State) (m : Memory) : verdictOf i (s.setFb m) = verdictOf i s := rfl
@[simp] theorem verdictOf_setStatus (i : Instr) (s : State) (v : Word) : verdictOf i (s.setStatus v) = verdictOf i s := rfl

/-- A draw keeps the legal states. -/
theorem draw_inv {r : Request} {s t : State} (hs : s.Inv) (h : draw r s = .next t) : t.Inv := by
  obtain ⟨hp, hfb, hbl, ha, hab, hst⟩ := hs
  rcases draw_cases r s with ⟨-, hd⟩ | ⟨code, -, hd⟩ | ⟨pl, hv, hd⟩
  · cases h.symm.trans hd
    exact ⟨hp, hfb, hbl, ha, hab, hst⟩
  · cases h.symm.trans hd
    exact ⟨hp, hfb, hbl, ha, hab, statusLegal_latch hst⟩
  · cases h.symm.trans hd
    obtain ⟨hdr, -, -, -, -, rfl⟩ := verdict_draw hv
    exact ⟨hp, wf_compose hfb, below_compose hbl, ha, hab, hst⟩

end Sys2Proof.Machine
end

