-- ==== Sys2Proof/Laws/PerInstr.lean ====
section
/-! SUPPORT. Statements made per command, one lemma per constructor of Instr. -/

namespace Sys2Proof.Laws.EncodesLegally

/-- The encoding of the command has every reserved bit 0 and a `MODE` that names a command (spec/30_encoding.md R41). -/
def Statement (i : Instr) : Prop := (encode i).rsv0 = 0 ∧ (encode i).rsv1 = 0 ∧ (encode i).mode.toNat ≤ 5

theorem drawOverwrite (x y : Int) (bitmap frame : Nat) : Statement (.drawOverwrite x y bitmap frame) := by
  simp [Statement, encode]

theorem drawSelfMasked (x y : Int) (bitmap frame : Nat) : Statement (.drawSelfMasked x y bitmap frame) := by
  simp [Statement, encode]

theorem drawErase (x y : Int) (bitmap frame : Nat) : Statement (.drawErase x y bitmap frame) := by
  simp [Statement, encode]

theorem drawExternalMask (x y : Int) (bitmap mask frame maskFrame : Nat) :
    Statement (.drawExternalMask x y bitmap mask frame maskFrame) := by
  simp [Statement, encode]

theorem drawPlusMask (x y : Int) (bitmap frame : Nat) : Statement (.drawPlusMask x y bitmap frame) := by
  simp [Statement, encode]

theorem drawAuto (x y : Int) (bitmap mask frame maskFrame : Nat) :
    Statement (.drawAuto x y bitmap mask frame maskFrame) := by
  simp [Statement, encode]

end Sys2Proof.Laws.EncodesLegally
end

