-- ==== Sys2Proof/Laws/Picture.lean ====
section
/-! SUPPORT. The picture determines the framebuffer: canonical memories with equal pixels, and equal bytes outside the
framebuffer, are the same memory (spec/20_memory.md R21). -/

namespace Sys2Proof.Machine

/-- Every bit of a framebuffer byte is a pixel. -/
theorem getLsbD_read_eq_pixel (p : Params) (fb : Memory) {j i : Nat} (hi : i < 8) :
    (fb.read j).getLsbD i = pixel p fb (j % p.width) (8 * (j / p.width) + i) := by
  have e1 : (8 * (j / p.width) + i) / 8 = j / p.width := by omega
  have e2 : (8 * (j / p.width) + i) % 8 = i := by omega
  have e3 : j / p.width * p.width + j % p.width = j := by rw [Nat.mul_comm]; exact Nat.div_add_mod j _
  rw [pixel, e1, e2, e3]

/-- The pixel coordinates of a framebuffer byte are in range. -/
theorem column_row_lt {p : Params} {j i : Nat} (hj : j < p.fbSize) (hi : i < 8) :
    j % p.width < p.width ∧ 8 * (j / p.width) + i < 8 * p.npages := by
  unfold Params.fbSize at hj
  have hW : 0 < p.width := by
    rcases Nat.eq_zero_or_pos p.width with h0 | h0
    · simp [h0] at hj
    · exact h0
  have hdiv : j / p.width < p.npages := by rwa [Nat.div_lt_iff_lt_mul hW, Nat.mul_comm]
  exact ⟨Nat.mod_lt _ hW, by omega⟩

theorem memory_ext_pixel {p : Params} {m m' : Memory} (h : m.wf = true) (h' : m'.wf = true)
    (hpix : ∀ X Y, X < p.width → Y < 8 * p.npages → pixel p m X Y = pixel p m' X Y)
    (hout : ∀ j, p.fbSize ≤ j → m.read j = m'.read j) : m = m' := by
  refine Memory.ext_read h h' fun j => ?_
  by_cases hj : p.fbSize ≤ j
  · exact hout j hj
  · refine BitVec.eq_of_getLsbD_eq fun i hi => ?_
    obtain ⟨hX, hY⟩ := column_row_lt (Nat.lt_of_not_le hj) hi
    rw [getLsbD_read_eq_pixel p m hi, getLsbD_read_eq_pixel p m' hi, hpix _ _ hX hY]

/-- Two completed draws over the same sprite rectangle leave the same memory if every covered pixel agrees. -/
theorem Drawn.ext {p : Params} {before m m' : Memory} {x y : Int} {w h : Nat} {f g : Nat → Nat → Bool → Bool}
    (hm : m.wf = true) (hm' : m'.wf = true) (d : Drawn p before m x y w h f) (d' : Drawn p before m' x y w h g)
    (hfg : ∀ X Y : Nat, X < p.width → Y < 8 * p.npages → InSprite x y w h X Y →
      f (X - x).toNat (Y - y).toNat (pixel p before X Y) = g (X - x).toNat (Y - y).toNat (pixel p before X Y)) :
    m = m' := by
  refine memory_ext_pixel (p := p) hm hm' (fun X Y hX hY => ?_) (fun j hj => (d.2 j hj).trans (d'.2 j hj).symm)
  rw [d.1 X Y hX hY, d'.1 X Y hX hY]
  split
  · exact hfg X Y hX hY ‹_›
  · rfl

end Sys2Proof.Machine
end

