-- ==== Sys2Proof/Laws/Step.lean ====
section
/-! SUPPORT. What one step can do, said once. -/

namespace Sys2Proof.Machine

/-- A run goes on from the state its first step answers. -/
theorem run_succ_of_next {s t : State} (h : step s = .next t) (n : Nat) : core.run (n + 1) s = core.run n t := by
  have gen : ∀ (M : Host.Core) (a b : M.State), M.step a = .next b → M.run (n + 1) a = M.run n b :=
    fun M a b hab => by rw [Host.Core.run, hab]
  exact gen core s t h

theorem run_one (s : State) : core.run 1 s = step s := by
  have gen : ∀ (M : Host.Core) (a : M.State), M.run 1 a = M.step a := fun M a => by
    rw [Host.Core.run]
    cases M.step a <;> rfl
  exact gen core s

theorem step_idle {s : State} (h : s.host = []) : step s = .next s := by
  simp [step, h, idle]

theorem step_action {s : State} {a : Action} {rest : List Action} (h : s.host = a :: rest) :
    step s = match accept a (s.setHost rest) with
      | .settled o => o
      | .issue t =>
        match issued t with
        | .command i => exec i t
        | .illegal e => rejectDescriptor e t := by
  simp only [step, h] <;> rfl

/-- A `GO` write of any value runs the command that `CMD0..CMD3` hold (spec/10_state.md R18). -/
theorem step_go {s : State} {v : Word} {rest : List Action} (h : s.host = .write 0x10 .word v :: rest) :
    step s = match decode s.cmd with
      | .command i => exec i (s.setHost rest)
      | .illegal _ => .next (raiseFault .illegalCmd (s.setHost rest)) := by
  rw [step_action h]
  change (match decode s.cmd with
    | .command i => exec i (s.setHost rest)
    | .illegal e => rejectDescriptor e (s.setHost rest)) = _
  cases decode s.cmd with
  | command i => rfl
  | illegal e => cases e <;> rfl

theorem selectRegister_ok {offset : Nat} {width : AccessWidth} {r : Register}
    (h : selectRegister offset width = .ok r) : width = .word ∧ registerAt offset = some r := by
  unfold selectRegister at h
  split at h
  · exact absurd h (by simp)
  · exact absurd h (by simp)
  · split at h
    · exact absurd h (by simp)
    · split at h
      · exact ⟨rfl, by rw [← Except.ok.inj h]; assumption⟩
      · exact absurd h (by simp)

theorem registerAt_go {offset : Nat} (h : registerAt offset = some .go) : offset = 0x10 := by
  unfold registerAt at h
  split at h <;> simp_all

/-- Everything a step that answers a next state can have done. -/
theorem step_next_cases {s t : State} (h : step s = .next t) :
    (s.host = [] ∧ t = s) ∨
    ∃ a rest, s.host = a :: rest ∧
      (t = s.setHost rest ∨
      (∃ d, t = (s.setHost rest).setCmd d) ∨
      (∃ v, t = (s.setHost rest).setResponse v) ∨
      (∃ address v, a = .storeAsset address v ∧ address < s.params.assetSize ∧
        t = (s.setHost rest).setAssets (s.assets.write address v)) ∨
      (a = .reset ∧ t = resetBlock (s.setHost rest)) ∨
      (∃ v i, a = .write 0x10 .word v ∧ decode s.cmd = .command i ∧ exec i (s.setHost rest) = .next t) ∨
      (∃ v e, a = .write 0x10 .word v ∧ decode s.cmd = .illegal e ∧
        t = raiseFault .illegalCmd (s.setHost rest))) := by
  cases hh : s.host with
  | nil =>
    rw [step_idle hh] at h
    cases h
    exact .inl ⟨rfl, rfl⟩
  | cons a rest =>
    refine .inr ⟨a, rest, rfl, ?_⟩
    rw [step_action hh] at h
    cases a with
    | write offset width v =>
      cases hr : selectRegister offset width with
      | error why => simp [accept, hr] at h
      | ok r =>
        obtain ⟨rfl, hat⟩ := selectRegister_ok hr
        cases r with
        | go =>
          obtain rfl := registerAt_go hat
          rw [← step_action hh, step_go hh] at h
          cases hd : decode s.cmd with
          | command i =>
            rw [hd] at h
            exact .inr (.inr (.inr (.inr (.inr (.inl ⟨v, i, rfl, rfl, h⟩)))))
          | illegal e =>
            rw [hd] at h
            cases h
            exact .inr (.inr (.inr (.inr (.inr (.inr ⟨v, e, rfl, rfl, rfl⟩)))))
        | status =>
          simp only [accept, hr, writeRegister, Host.Outcome.next.injEq] at h
          exact .inl h.symm
        | cmd0 | cmd1 | cmd2 | cmd3 =>
          simp only [accept, hr, writeRegister, Host.Outcome.next.injEq] at h
          exact .inr (.inl ⟨_, h.symm⟩)
    | read offset width =>
      cases hr : selectRegister offset width with
      | error why => simp [accept, hr] at h
      | ok r =>
        simp only [accept, hr, Host.Outcome.next.injEq] at h
        exact .inr (.inr (.inl ⟨_, h.symm⟩))
    | flush =>
      simp only [accept, Host.Outcome.next.injEq] at h
      exact .inr (.inr (.inl ⟨_, h.symm⟩))
    | reset =>
      simp only [accept, Host.Outcome.next.injEq] at h
      exact .inr (.inr (.inr (.inr (.inl ⟨rfl, h.symm⟩))))
    | storeAsset address v =>
      by_cases hlt : address < s.params.assetSize
      · simp only [accept, State.setHost_params, hlt, if_true, Host.Outcome.next.injEq] at h
        exact .inr (.inr (.inr (.inl ⟨address, v, rfl, hlt, h.symm⟩)))
      · simp [accept, hlt] at h

end Sys2Proof.Machine
end

