-- ==== Sys2Proof/Tests/Slice0.lean ====
section
/-! SUPPORT. Tests: the checks of WellFormed, words written out from the spec, vectors of spec/95_test_vectors.md, and a
witness for the hypotheses of every statement. Expected values are the spec's, not the model's. -/

namespace Sys2Proof.Machine.Slice0

/-! ### Fixtures -/

/-- A canonical memory from consecutive bytes. -/
def bytesAt : Nat → List Byte → Memory
  | _, [] => []
  | a, b :: rest => if b = 0 then bytesAt (a + 1) rest else (a, b) :: bytesAt (a + 1) rest

/-- The asset memory of spec/95_test_vectors.md section 0, from 0x04 on. -/
def assets0 : Memory :=
  bytesAt 0x04 [0x02, 0x02, 0x03, 0x03] ++
  bytesAt 0x08 [0x01, 0x08, 0xA5, 0x0F, 0x01, 0x08, 0xA5, 0x0F] ++
  bytesAt 0x10 [0x04, 0x0A, 0x11, 0x22, 0x44, 0x88, 0x01, 0x02, 0x03, 0x00] ++
  bytesAt 0x1A [0xFF, 0x81, 0x81, 0xFF, 0x03, 0x02, 0x02, 0x03] ++
  bytesAt 0x22 [0xFF, 0xFF, 0xFF, 0xFF, 0x03, 0x03, 0x03, 0x03] ++
  bytesAt 0x2A [0x02, 0x08, 0x3C, 0x7E, 0x18, 0x3C, 0xFF, 0xFF, 0x00, 0xFF] ++
  bytesAt 0x34 [0x00, 0x08, 0x03, 0x03, 0xFF, 0x05, 0x07] ++
  bytesAt 0x3B [0x01, 0x08, 0xFF, 0x01, 0x08, 0x50, 0x01, 0x10, 0xFF, 0xFF, 0x00]

/-- The state of the vectors: 80x160, `ASSET_SIZE = 0x46`, the framebuffer given. -/
def large (fb : Memory) : State :=
  { State.reset with params := { width := 80, height := 160, assetSize := 0x46 }, assets := assets0, fb := fb }

/-- The small instance of the vectors: 8x13. -/
def small (fb : Memory) : State :=
  { State.reset with params := { width := 8, height := 13, assetSize := 0x46 }, assets := assets0, fb := fb }

/-- The small instance with the same byte everywhere. -/
def smallAll (b : Byte) : State := small (bytesAt 0 (List.replicate 16 b))

/-- The small instance with the given actions pending. -/
def pending (l : List Action) : State := (smallAll 0xAA).setHost l

def next? (o : Host.Outcome State Fault Refusal) : Option State :=
  match o with
  | .next t => some t
  | .fault _ => none
  | .refused _ => none

def fbOf (o : Host.Outcome State Fault Refusal) : Option Memory := (next? o).map State.fb

def statusOf (o : Host.Outcome State Fault Refusal) : Option Word := (next? o).map State.status

theorem test_fixtures_are_legal : (large []).Inv ∧ (smallAll 0xAA).Inv ∧ (smallAll 0).Inv := by decide

/-! ### WellFormed: each check refuses (spec/30_encoding.md R44) -/

theorem test_x_too_large : (Instr.drawOverwrite 32768 0 4 0).wellFormed = false := by decide
theorem test_x_too_small : (Instr.drawSelfMasked (-32769) 0 4 0).wellFormed = false := by decide
theorem test_y_out_of_range :
    (Instr.drawErase 0 32768 4 0).wellFormed = false ∧ (Instr.drawPlusMask 0 (-32769) 4 0).wellFormed = false := by decide
theorem test_bitmap_out_of_range : (Instr.drawPlusMask 0 0 (2 ^ 32) 0).wellFormed = false := by decide
theorem test_mask_out_of_range :
    (Instr.drawExternalMask 0 0 4 (2 ^ 32) 0 0).wellFormed = false ∧
      (Instr.drawAuto 0 0 4 (2 ^ 32) 0 0).wellFormed = false := by decide
theorem test_frame_out_of_range : (Instr.drawOverwrite 0 0 4 256).wellFormed = false := by decide
theorem test_mask_frame_out_of_range :
    (Instr.drawExternalMask 0 0 4 8 0 256).wellFormed = false ∧ (Instr.drawAuto 0 0 4 8 0 256).wellFormed = false := by
  decide

/-! ### Decoding: words of spec/95_test_vectors.md sections 2.4 to 2.7, as 128-bit numbers `CMD3 CMD2 CMD1 CMD0` -/

/-- V-U9. -/
theorem test_decode_drawOverwrite :
    decodeTableWord 128 0x00000000_00000010_0000FFFD_00000000 = some (.drawOverwrite (-3) 0 0x10 0) := by decide
/-- V-U20. -/
theorem test_decode_drawSelfMasked :
    decodeTableWord 128 0x00000000_00000010_0014000A_00000001 = some (.drawSelfMasked 10 20 0x10 0) := by decide
/-- V-U6. -/
theorem test_decode_drawErase :
    decodeTableWord 128 0x00000000_00000008_00030000_00000002 = some (.drawErase 0 3 0x08 0) := by decide
/-- Section 2.4, first row. -/
theorem test_decode_drawExternalMask :
    decodeTableWord 128 0x00000200_00000100_0009FFFD_00010203 = some (.drawExternalMask (-3) 9 0x100 0x200 2 1) := by
  decide
/-- V-M10: ignored fields are not zero. -/
theorem test_decode_drawPlusMask :
    decodeTableWord 128 0xFFFFFFFF_0000000C_00030000_00FF0004 = some (.drawPlusMask 0 3 0x0C 0) := by decide
/-- V-M6. -/
theorem test_decode_drawAuto :
    decodeTableWord 128 0x00000000_00000008_00030000_00070005 = some (.drawAuto 0 3 0x08 0 0 7) := by decide
/-- V-F1 to V-F4. -/
theorem test_decode_illegal :
    decodeTableWord 128 0x00000000_00000004_00000000_00000006 = none ∧
    decodeTableWord 128 0x00000000_00000004_00000000_00000007 = none ∧
    decodeTableWord 128 0x00000000_00000004_00000000_00000008 = none ∧
    decodeTableWord 128 0x00000000_00000004_00000000_80000000 = none := by decide
/-- V-M7, the assembler's words. -/
theorem test_encode :
    encode (.drawExternalMask 2 3 0x10 0x22 1 0) = ⟨0x00000103, 0x00030002, 0x00000010, 0x00000022⟩ := by decide
/-- R44: the ignored mask frame is written 0 with a null mask (the rule governs over V-M6's word), as given with a mask. -/
theorem test_encode_drawAuto :
    encode (.drawAuto 0 3 0x08 0 0 7) = ⟨0x00000005, 0x00030000, 0x00000008, 0x00000000⟩ ∧
    encode (.drawAuto 0 3 0x08 0x0B 0 7) = ⟨0x00070005, 0x00030000, 0x00000008, 0x0000000B⟩ := by decide

/-! ### Vectors -/

/-- V-U16: right clip, `HEIGHT` not a multiple of 8. -/
theorem test_drawOverwrite_clipped :
    fbOf (exec (.drawOverwrite 6 5 0x10 1) (small [])) = some [(6, 0xE0), (7, 0x20), (14, 0x7F), (15, 0x50)] := by decide
/-- V-U7: `y = -1`. -/
theorem test_drawOverwrite_above :
    fbOf (exec (.drawOverwrite 0 (-1) 0x08 0) (large [(0, 0xFF), (80, 0xFF)])) = some [(0, 0xD2), (80, 0xFF)] := by decide
/-- V-U5. -/
theorem test_drawSelfMasked :
    fbOf (exec (.drawSelfMasked 0 3 0x08 0) (large [(0, 0x81), (80, 0x10)])) = some [(0, 0xA9), (80, 0x15)] := by decide
/-- V-U6. -/
theorem test_drawErase :
    fbOf (exec (.drawErase 0 3 0x08 0) (large [(0, 0xFF), (80, 0xFF)])) = some [(0, 0xD7), (80, 0xFA)] := by decide
/-- V-M14: left clip, two page-rows, spillover dropped. -/
theorem test_drawExternalMask :
    (fbOf (exec (.drawExternalMask (-1) 6 0x10 0x22 1 0) (smallAll 0xAA))).map (fun fb => fb.bytes 16) =
      some [0x6A, 0x6A, 0xEA, 0xAA, 0xAA, 0xAA, 0xAA, 0xAA, 0xA0, 0xA0, 0xFF, 0xAA, 0xAA, 0xAA, 0xAA, 0xAA] := by decide
/-- V-M13. -/
theorem test_drawExternalMask_null : statusOf (exec (.drawExternalMask 0 0 0x08 0 0 0) (large [])) = some 0x9 := by decide
/-- V-M8: the second cell clears its span. -/
theorem test_drawPlusMask :
    fbOf (exec (.drawPlusMask 0 4 0x2A 1) (large [(0, 0x55), (1, 0x55), (80, 0x55), (81, 0x55)])) =
      some [(0, 0xF5), (1, 0x05), (80, 0x5F), (81, 0x50)] := by decide
/-- V-M9: left clip in the combined layout. -/
theorem test_drawPlusMask_clipped : fbOf (exec (.drawPlusMask (-1) 0 0x2A 0) (large [])) = some [(0, 0x18)] := by decide
/-- V-M5. -/
theorem test_drawAuto_mask :
    fbOf (exec (.drawAuto 0 3 0x08 0x0B 0 0) (large [(0, 0xFF), (80, 0xFF)])) = some [(0, 0xAF), (80, 0xFF)] := by decide
/-- V-M6. -/
theorem test_drawAuto_null :
    fbOf (exec (.drawAuto 0 3 0x08 0 0 7) (large [(0, 0xFF), (80, 0xFF)])) = some [(0, 0x2F), (80, 0xFD)] := by decide

/-- V-F11, V-F8, V-F9: the faults of the cells and of the header. -/
theorem test_fault_codes :
    statusOf (exec (.drawOverwrite 0 0 0x41 1) (large [])) = some 0x5 ∧
    statusOf (exec (.drawOverwrite 0 0 0x34 0) (large [])) = some 0x7 ∧
    statusOf (exec (.drawOverwrite 1000 0 0x34 0) (large [])) = some 0x7 := by decide
/-- V-F5: illegal before the null bitmap. -/
theorem test_illegal_before_null : statusOf (step ((large []).withFetchWord 128 0x01000000)) = some 0x3 := by decide
/-- PRG5, step 4: the first fault stays. -/
theorem test_first_fault_stays :
    statusOf (step (((large []).setStatus 0x5).withFetchWord 128 0x00000000_00000004_00000000_00000006)) = some 0x5 := by
  decide
/-- V-U1 as the first step after reset, with the asset in place. -/
theorem test_step_runs_the_word :
    fbOf (step ((State.reset.setAssets assets0).withFetchWord 128 0x00000000_00000004_00000000_00000000)) =
      some [(0, 0x03), (1, 0x03)] := by decide
/-- spec/10_state.md R12: a read returns what was written. -/
theorem test_cmd_reads_back :
    (next? (core.run 2 (pending [.write 0x08 .word 0x12345678, .read 0x08 .word]))).map State.response =
      some (.word 0x12345678) := by decide

/-! ### Witnesses: the hypotheses of each statement met together, a witness for each clause -/

theorem witness_DecodingAnEncodedCommandGivesItBack :
    (Instr.drawOverwrite (-32768) 32767 (2 ^ 32 - 1) 255).wellFormed = true ∧
    (Instr.drawSelfMasked 32767 (-32768) 0 0).wellFormed = true ∧
    (Instr.drawErase (-1) (-1) (2 ^ 32 - 1) 255).wellFormed = true ∧
    (Instr.drawExternalMask (-32768) 32767 (2 ^ 32 - 1) (2 ^ 32 - 1) 255 255).wellFormed = true ∧
    (Instr.drawPlusMask 0 0 1 255).wellFormed = true ∧
    (Instr.drawAuto 32767 (-32768) 1 1 0 255).wellFormed = true ∧
    (Instr.drawAuto 32767 (-32768) 1 0 255 0).wellFormed = true ∧
    (Instr.drawAuto 32767 (-32768) 1 0 0 255).wellFormed = true := by decide

/-- The premise on the mask frame, met with a mask and with a null one. -/
theorem witness_DecodingAnEncodedCommandGivesItBack_drawAuto :
    (∀ x y bitmap frame maskFrame,
      Instr.drawAuto 32767 (-32768) 1 1 0 255 = .drawAuto x y bitmap 0 frame maskFrame → maskFrame = 0) ∧
    (∀ x y bitmap frame maskFrame,
      Instr.drawAuto 32767 (-32768) 1 0 255 0 = .drawAuto x y bitmap 0 frame maskFrame → maskFrame = 0) :=
  ⟨fun _ _ _ _ _ h => by simp at h, fun _ _ _ _ _ h => by simp at h; omega⟩

theorem witness_DecodeReadsEveryFieldOfTheDescriptor :
    (0x00FFFF00 : Word) &&& 0xFF0000FF = 0 ∧ (0x00FFFF01 : Word) &&& 0xFF0000FF = 1 ∧
    (0x00FFFF02 : Word) &&& 0xFF0000FF = 2 ∧ (0x00FFFF03 : Word) &&& 0xFF0000FF = 3 ∧
    (0x00FFFF04 : Word) &&& 0xFF0000FF = 4 ∧ (0x00FFFF05 : Word) &&& 0xFF0000FF = 5 ∧
    5 < ((0x00FFFF06 : Word) &&& 0xFF0000FF).toNat ∧ 5 < ((0xFFFFFFFF : Word) &&& 0xFF0000FF).toNat := by decide

theorem witness_IgnoredMaskFieldsHaveNoEffect :
    (0x0000FF00 : Word) &&& 7 = 0 ∧ (0x0000FF01 : Word) &&& 7 = 1 ∧ (0x0000FF02 : Word) &&& 7 = 2 ∧
      (0xFFFFFFFC : Word) &&& 7 = 4 := by decide

theorem witness_ReencodingClearsOnlyIgnoredFields :
    decode ⟨0x00FFFF00, 0x80007FFF, 0xFFFFFFFF, 0xFFFFFFFF⟩ = .command (.drawOverwrite 32767 (-32768) 0xFFFFFFFF 255) ∧
    decode ⟨0x00FFFF01, 0, 4, 1⟩ = .command (.drawSelfMasked 0 0 4 255) ∧
    decode ⟨0x00FFFF02, 0, 4, 1⟩ = .command (.drawErase 0 0 4 255) ∧
    decode ⟨0x00FFFF03, 0, 4, 1⟩ = .command (.drawExternalMask 0 0 4 1 255 255) ∧
    decode ⟨0x00FFFF04, 0, 4, 1⟩ = .command (.drawPlusMask 0 0 4 255) ∧
    decode ⟨0x00FFFF05, 0, 4, 1⟩ = .command (.drawAuto 0 0 4 1 255 255) ∧
    decode ⟨0x00FFFF05, 0, 4, 0⟩ = .command (.drawAuto 0 0 4 0 255 255) := by decide

theorem witness_CmdRegistersReadBackAndSurviveCommands :
    (pending [.write 0x00 .word 1, .flush]).host = .write 0x00 .word 1 :: [.flush] ∧
    (pending [.write 0x04 .word 1]).host = .write 0x04 .word 1 :: [] ∧
    (pending [.write 0x08 .word 1]).host = .write 0x08 .word 1 :: [] ∧
    (pending [.write 0x0C .word 0xFFFFFFFF]).host = .write 0x0C .word 0xFFFFFFFF :: [] ∧
    (pending [.read 0x00 .word]).host = .read 0x00 .word :: [] ∧
    (pending [.read 0x04 .word]).host = .read 0x04 .word :: [] ∧
    (pending [.read 0x08 .word]).host = .read 0x08 .word :: [] ∧
    (pending [.read 0x0C .word]).host = .read 0x0C .word :: [] := by decide

theorem witness_GoWriteRunsTheDecodedCommand :
    (pending [.write 0x10 .word 7]).host = .write 0x10 .word 7 :: [] ∧
    decode (pending []).cmd = .command (.drawOverwrite 0 0 0 0) ∧
    decode ((pending []).setCmd ⟨6, 0, 4, 0⟩).cmd = .illegal .reservedMode ∧
    (pending [.read 0x10 .word]).host = .read 0x10 .word :: [] := by decide

theorem witness_CmdWritesInAnyOrderThenGoExecuteTheCommand :
    [Action.write 0x0C .word 0, .write 0x00 .word 6, .write 0x08 .word 4, .write 0x04 .word 0].Perm
      [.write 0x00 .word 6, .write 0x04 .word 0, .write 0x08 .word 4, .write 0x0C .word 0] ∧
    (pending ([.write 0x0C .word 0, .write 0x00 .word 6, .write 0x08 .word 4, .write 0x04 .word 0] ++
      goWrite :: [.flush])).host =
      [.write 0x0C .word 0, .write 0x00 .word 6, .write 0x08 .word 4, .write 0x04 .word 0] ++ goWrite :: [.flush] ∧
    (Instr.drawAuto 0 0 4 0 0 7).wellFormed = true ∧
    (pending (issueWrites (encode (.drawAuto 0 0 4 0 0 7)) ++ [])).host =
      issueWrites (encode (.drawAuto 0 0 4 0 0 7)) ++ [] := by decide

theorem witness_AccessesOutsideTheRegisterMapAreRefused :
    ((AccessWidth.byte ≠ .word ∨ 0x00 ∉ [0x00, 0x04, 0x08, 0x0C, 0x10, 0x14]) ∧
      (pending [.write 0x00 .byte 1]).host = .write 0x00 .byte 1 :: []) ∧
    ((AccessWidth.word ≠ .word ∨ 0x18 ∉ [0x00, 0x04, 0x08, 0x0C, 0x10, 0x14]) ∧
      (pending [.read 0x18 .word]).host = .read 0x18 .word :: []) ∧
    (0x14 ∈ [0x00, 0x04, 0x08, 0x0C, 0x10, 0x14] ∧ (pending [.write 0x14 .word 1]).host = .write 0x14 .word 1 :: [] ∧
      (pending [.read 0x14 .word]).host = .read 0x14 .word :: []) := by decide

theorem witness_StatusReadsTheLatchAndIgnoresWrites :
    ((pending [.write 0x14 .word 0xFFFFFFFF]).Inv ∧
      (pending [.write 0x14 .word 0xFFFFFFFF]).host = .write 0x14 .word 0xFFFFFFFF :: [] ∧
      (pending []).status &&& 1 = 0) ∧
    (((pending [.read 0x14 .word]).setStatus 0x9).Inv ∧
      ((pending [.read 0x14 .word]).setStatus 0x9).host = .read 0x14 .word :: [] ∧
      ((pending []).setStatus 0x9).status &&& 1 = 1) := by decide

theorem witness_FlushReturnsACopyAndChangesNothing : (pending [.flush]).host = .flush :: [] := by decide

theorem witness_ResetClearsTheBlockAndKeepsAssets : (pending [.reset, .flush]).host = .reset :: [.flush] := by decide

theorem witness_PlatformStoreChangesOneAssetByte :
    ((pending [.storeAsset 0x45 0x80]).Inv ∧ (pending [.storeAsset 0x45 0x80]).host = .storeAsset 0x45 0x80 :: [] ∧
      0x45 < (pending []).params.assetSize) ∧
    ((pending [.storeAsset 0x46 0x80]).Inv ∧ (pending [.storeAsset 0x46 0x80]).host = .storeAsset 0x46 0x80 :: [] ∧
      (pending []).params.assetSize ≤ 0x46) := by decide

theorem witness_EveryStepKeepsTheLegalStates :
    (pending [goWrite]).Inv ∧ ∃ t, step (pending [goWrite]) = .next t := ⟨by decide, _, rfl⟩

theorem witness_CommandsStoreOnlyToTheirCells :
    (smallAll 0xAA).Inv ∧ storesTo (.drawOverwrite 0 0 0x04 0) (smallAll 0xAA) 0 ∧
      ¬ storesTo (.drawOverwrite 0 0 0 0) (smallAll 0xAA) 0 := by
  refine ⟨by decide, ?_, id⟩
  exact ⟨(0, 0), by decide, .inl (by decide)⟩

theorem witness_OnlyDrawsAndResetWriteTheFramebuffer :
    (∃ t, step (pending [.reset]) = .next t ∧ t.fb ≠ (pending [.reset]).fb) ∧
    (∃ t, step (pending [.storeAsset 0 1]) = .next t ∧ t.assets ≠ (pending [.storeAsset 0 1]).assets) :=
  ⟨⟨_, rfl, by decide⟩, ⟨_, rfl, by decide⟩⟩

theorem witness_EachPixelDependsOnNoOtherPixel :
    (smallAll 0xAA).fb.wf = true ∧ (smallAll 0x80).fb.wf = true ∧ 7 < (smallAll 0xAA).params.width ∧
      15 < 8 * (smallAll 0xAA).params.npages ∧
      pixel (smallAll 0xAA).params (smallAll 0xAA).fb 7 15 = pixel (smallAll 0xAA).params (smallAll 0x80).fb 7 15 := by
  decide

/-- The other asset memory differs in a byte the draw does not read. -/
theorem witness_DrawReadsOnlyItsHeaderAndProcessedCells :
    ∃ pl, verdictOf (.drawExternalMask 0 0 0x08 0x0B 0 0) (smallAll 0xAA) = .draw pl ∧
      ((smallAll 0xAA).assets.write 0x10 0xFF).read 0x08 = (smallAll 0xAA).assets.read 0x08 ∧
      ((smallAll 0xAA).assets.write 0x10 0xFF).read 0x09 = (smallAll 0xAA).assets.read 0x09 ∧
      ∀ cell ∈ cells pl.clip, ∀ a, cellReads pl cell a →
        ((smallAll 0xAA).assets.write 0x10 0xFF).read a = (smallAll 0xAA).assets.read a := by
  refine ⟨planOf (smallAll 0xAA).params ⟨.externalMask, 0, 0, 0x08, 0, 0x0B, 0⟩ ⟨1, 8⟩, by decide, by decide, by decide, ?_⟩
  intro cell hc a ha
  have hcell : cell = (0, 0) := by
    have : ∀ c ∈ cells (clip (smallAll 0xAA).params 0 0 1 8), c = (0, 0) := by decide
    exact this cell hc
  subst hcell
  rcases ha with rfl | ⟨-, rfl⟩ | ⟨h, -⟩
  · decide
  · decide
  · exact absurd h (by decide)

theorem witness_NullBitmapIsASilentNoOp :
    (requestOf (.drawOverwrite 0 0 0 3)).bptr = 0 ∧ (requestOf (.drawSelfMasked 0 0 0 0)).bptr = 0 ∧
    (requestOf (.drawErase 0 0 0 0)).bptr = 0 ∧ (requestOf (.drawExternalMask 0 0 0 0 0 0)).bptr = 0 ∧
    (requestOf (.drawPlusMask 0 0 0 0)).bptr = 0 ∧ (requestOf (.drawAuto 0 0 0 5 0 0)).bptr = 0 := by decide

/-- V-F14, V-S1, V-S3, V-S5, V-S7. -/
theorem witness_ExactlyTwoConditionsSkipACommand :
    verdictOf (.drawOverwrite 0 0 0 3) (large []) = .skipped ∧
    verdictOf (.drawOverwrite (-4) 0 0x10 0) (large []) = .skipped ∧
    verdictOf (.drawOverwrite 80 0 0x10 0) (large []) = .skipped ∧
    verdictOf (.drawOverwrite 0 (-10) 0x10 0) (large []) = .skipped ∧
    verdictOf (.drawOverwrite 0 160 0x10 0) (large []) = .skipped ∧
    verdictOf (.drawOverwrite (-3) 0 0x10 0) (large []) ≠ .skipped ∧
    verdictOf (.drawOverwrite 0 159 0x10 0) (large []) ≠ .skipped := by decide

/-- V-F1 to V-F5. -/
theorem witness_IllegalDescriptorFaultsBeforeAnythingElse :
    (pending [goWrite]).Inv ∧ (pending [goWrite]).host = .write 0x10 .word 0 :: [] ∧
    (0x00000006 : Word) &&& 7 = 6 ∧ (0x00000007 : Word) &&& 7 = 7 ∧ (0x00000008 : Word) &&& 0xF8 ≠ 0 ∧
    (0x80000000 : Word) &&& 0xFF000000 ≠ 0 ∧ (0x01000000 : Word) &&& 0xFF000000 ≠ 0 ∧
    ((pending [goWrite]).setCmd ⟨0x01000000, 0, 0, 0⟩).Inv ∧
    (((pending [goWrite]).setCmd ⟨0x01000000, 0, 0, 0⟩).setStatus 0x5).Inv := by decide

/-- V-F6, V-F8 and a height byte of 0. -/
theorem witness_UnreadableAndZeroHeadersFault :
    (large []).Inv ∧
    ((requestOf (.drawOverwrite 0 0 0x45 0)).bptr ≠ 0 ∧ (large []).params.assetSize ≤ 0x45 + 1) ∧
    ((requestOf (.drawOverwrite 0 0 0x34 0)).bptr ≠ 0 ∧ 0x34 + 1 < (large []).params.assetSize ∧
      (large []).assets.read 0x34 = 0) ∧
    ((requestOf (.drawOverwrite 0 0 0x44 0)).bptr ≠ 0 ∧ 0x44 + 1 < (large []).params.assetSize ∧
      (large []).assets.read 0x45 = 0) := by decide

/-- V-M13. -/
theorem witness_NullMaskFaultsInDrawExternalMaskOnly :
    (large []).Inv ∧ HeaderAt (large []).params (large []).assets 0x08 1 8 ∧ ¬ OffScreen (large []).params 0 0 1 8 ∧
      verdictOf (.drawExternalMask 0 0 0x08 0 0 0) (large []) = .fault .nullMask := by decide

/-- V-F11 and V-F12: the same frame, whole and clipped to its first page-row; V-F13 for the mask. -/
theorem witness_RangeFaultExactlyWhenAProcessedCellIsOutside :
    ((large []).Inv ∧ HeaderAt (large []).params (large []).assets 0x41 1 16 ∧
      ¬ OffScreen (large []).params 0 0 1 16 ∧
      (1, 0) ∈ cells (clip (large []).params 0 0 1 16) ∧
      cellReads (planOf (large []).params (requestOf (.drawOverwrite 0 0 0x41 1)) ⟨1, 16⟩) (1, 0) 0x46) ∧
    (¬ OffScreen (large []).params 0 152 1 16 ∧
      ∀ cell ∈ cells (clip (large []).params 0 152 1 16), ∀ a,
        cellReads (planOf (large []).params (requestOf (.drawOverwrite 0 152 0x41 1)) ⟨1, 16⟩) cell a → a < 0x46) ∧
    cellReads (planOf (large []).params (requestOf (.drawExternalMask 0 0 0x08 0x45 0 1)) ⟨1, 8⟩) (0, 0) 0x46 := by
  refine ⟨⟨by decide, by decide, by decide, by decide, .inl (by decide)⟩, ⟨by decide, ?_⟩, .inr (.inl (by decide))⟩
  intro cell hc a ha
  have hcell : cell = (0, 0) := by
    have : ∀ c ∈ cells (clip (large []).params 0 152 1 16), c = (0, 0) := by decide
    exact this cell hc
  subst hcell
  rcases ha with rfl | ⟨h, -⟩ | ⟨h, -⟩
  · decide
  · exact absurd h (by decide)
  · exact absurd h (by decide)

theorem witness_FirstFaultIsLatchedUntilReset :
    verdictOf (.drawOverwrite 0 0 0x41 1) (large []) = .fault .assetRange ∧ statusFault (large []).status = false ∧
    statusFault ((large []).setStatus 0x7).status = true ∧
    (∃ t, step ((pending [.flush]).setStatus 0x7) = .next t) ∧
    ((pending [.flush]).setStatus 0x7).host.head? ≠ some .reset := by
  exact ⟨by decide, by decide, by decide, ⟨_, rfl⟩, by decide⟩

theorem witness_StatusChangesOnlyByAFaultOrReset :
    (∃ t, step ((pending [.reset]).setStatus 0x7) = .next t ∧ t.status ≠ ((pending [.reset]).setStatus 0x7).status) ∧
    (∃ t, step ((pending [goWrite]).setCmd ⟨6, 0, 4, 0⟩) = .next t ∧ t.status ≠ (pending [goWrite]).status) :=
  ⟨⟨_, rfl, by decide⟩, ⟨_, rfl, by decide⟩⟩

/-- V-S2, V-S4, V-S6, V-S8: the last positions on the screen at each edge. -/
theorem witness_ClippedCellsLandOnTheFramebuffer :
    Params.reference.wf = true ∧ ¬ OffScreen Params.reference (-3) 0 4 10 ∧ ¬ OffScreen Params.reference 79 0 4 10 ∧
      ¬ OffScreen Params.reference 0 (-9) 4 10 ∧ ¬ OffScreen Params.reference 0 159 4 10 := by decide

theorem witness_ShiftSplitsIntoLowAndHighByte : 0 < 8 ∧ 7 < 8 := by decide

theorem witness_TraversalIsBoundedAndColumnFastest : 255 ≤ 255 ∧ 0 ≤ 255 := by decide

/-- The cells of the small draw in the opposite order. -/
theorem witness_FramebufferDoesNotDependOnTraversalOrder :
    (smallAll 0xAA).fb.wf = true ∧
    (cells (planOf (smallAll 0xAA).params (requestOf (.drawOverwrite 0 0 0x10 1)) ⟨4, 10⟩).clip).reverse.Perm
      (cells (planOf (smallAll 0xAA).params (requestOf (.drawOverwrite 0 0 0x10 1)) ⟨4, 10⟩).clip) :=
  ⟨by decide, List.reverse_perm _⟩

theorem witness_MergeOperatorsAndOwnMaskBitByBit :
    0 < 8 ∧ 7 < 8 ∧ (0x7F : Byte).getLsbD 7 = false ∧ (0x00 : Byte).getLsbD 7 = false ∧
      (planOf (large []).params (requestOf (.drawAuto 0 0 0x08 0 0 0)) ⟨1, 8⟩).mode = .unmasked := by decide

/-- A frame that ends at the last asset byte but one: A_TALL, frame 0, on the small instance. -/
theorem witness_DrawOverwriteCopiesEveryBitmapPixel :
    (smallAll 0xAA).Inv ∧ HeaderAt (smallAll 0xAA).params (smallAll 0xAA).assets 0x41 1 16 ∧
      ¬ OffScreen (smallAll 0xAA).params 7 0 1 16 ∧
      0x41 + 2 + 0 * (1 * pageRows 16) + lastCell (smallAll 0xAA).params 7 0 1 16 < 0x46 := by decide

/-- Clipped on the left and at the top. -/
theorem witness_DrawSelfMaskedSetsTheBitmapPixels :
    (smallAll 0xAA).Inv ∧ HeaderAt (smallAll 0xAA).params (smallAll 0xAA).assets 0x10 4 10 ∧
      ¬ OffScreen (smallAll 0xAA).params (-3) (-9) 4 10 ∧
      0x10 + 2 + 1 * (4 * pageRows 10) + lastCell (smallAll 0xAA).params (-3) (-9) 4 10 < 0x46 := by decide

/-- Clipped on the right and at the bottom. -/
theorem witness_DrawEraseClearsTheBitmapPixels :
    (smallAll 0xAA).Inv ∧ HeaderAt (smallAll 0xAA).params (smallAll 0xAA).assets 0x10 4 10 ∧
      ¬ OffScreen (smallAll 0xAA).params 7 12 4 10 ∧
      0x10 + 2 + 1 * (4 * pageRows 10) + lastCell (smallAll 0xAA).params 7 12 4 10 < 0x46 := by decide

/-- V-M14. -/
theorem witness_DrawExternalMaskMergesImageUnderMask :
    (smallAll 0xAA).Inv ∧ HeaderAt (smallAll 0xAA).params (smallAll 0xAA).assets 0x10 4 10 ∧ 0x22 ≠ 0 ∧
      ¬ OffScreen (smallAll 0xAA).params (-1) 6 4 10 ∧
      0x10 + 2 + 1 * (4 * pageRows 10) + lastCell (smallAll 0xAA).params (-1) 6 4 10 < 0x46 ∧
      0x22 + 0 * (4 * pageRows 10) + lastCell (smallAll 0xAA).params (-1) 6 4 10 < 0x46 := by decide

/-- V-M8. -/
theorem witness_DrawPlusMaskMergesInterleavedCells :
    (large []).Inv ∧ HeaderAt (large []).params (large []).assets 0x2A 2 8 ∧ ¬ OffScreen (large []).params 0 4 2 8 ∧
      0x2A + 2 + 1 * (2 * 2 * pageRows 8) + 2 * lastCell (large []).params 0 4 2 8 + 1 < 0x46 := by decide

/-- V-M5 and V-M6. -/
theorem witness_DrawAutoCopiesOrMergesByItsMask :
    (large []).Inv ∧ HeaderAt (large []).params (large []).assets 0x08 1 8 ∧ ¬ OffScreen (large []).params 0 3 1 8 ∧
      0x08 + 2 + 0 * (1 * pageRows 8) + lastCell (large []).params 0 3 1 8 < 0x46 ∧
      (0x0B ≠ 0 ∧ 0x0B + 0 * (1 * pageRows 8) + lastCell (large []).params 0 3 1 8 < 0x46) ∧
      (0 ≠ 0 → 0 + 7 * (1 * pageRows 8) + lastCell (large []).params 0 3 1 8 < 0x46) := by decide

theorem witness_AutoIsResolvedByTheMaskReferenceAlone : (0x0B : Nat) ≠ 0 := by decide

/-- The sprite A_F in the lower right corner of its last page-aligned place. -/
theorem witness_AlignedOverwriteStoresTheBitmapBytes :
    (large []).Inv ∧ HeaderAt (large []).params (large []).assets 0x10 4 10 ∧ 76 + 4 ≤ (large []).params.width ∧
      144 + 10 ≤ (large []).params.height ∧ 144 % 8 = 0 ∧
      0x10 + 2 + (1 + 1) * (4 * pageRows 10) ≤ (large []).params.assetSize := by decide

/-- One state for each end: drawn, skipped, faulted. -/
theorem witness_EveryCommandIsIdempotent :
    (smallAll 0xAA).Inv ∧ fbOf (exec (.drawErase 6 5 0x10 1) (smallAll 0xAA)) ≠ some (smallAll 0xAA).fb ∧
      verdictOf (.drawErase 8 0 0x10 1) (smallAll 0xAA) = .skipped ∧
      verdictOf (.drawErase 0 0 0x34 0) (smallAll 0xAA) = .fault .badHeader := by decide

/-- PRG4's operands on the small instance. -/
theorem witness_SelfMaskedThenEraseIsEraseAlone :
    (smallAll 0x33).Inv ∧ fbOf (exec (.drawSelfMasked 5 5 0x10 1) (smallAll 0x33)) ≠ some (smallAll 0x33).fb := by decide

theorem witness_SelfMaskedDrawsCommuteAndErasesCommute :
    (smallAll 0x33).Inv ∧ fbOf (exec (.drawErase 5 5 0x10 1) (smallAll 0x33)) ≠ some (smallAll 0x33).fb := by decide

/-- PRG3 on the small instance with an empty background: sprite A_B, ones A_ONES, and A_T's place holding zeros. -/
def background : State := { small [] with assets := (small []).assets.write 0x40 0 }

theorem witness_SavedBackgroundIsRestoredExactly :
    background.Inv ∧ HeaderAt background.params background.assets 0x08 1 8 ∧
    HeaderAt background.params background.assets 0x3B 1 8 ∧ HeaderAt background.params background.assets 0x3E 1 8 ∧
    0x08 + 2 + (0 + 1) * (1 * pageRows 8) ≤ background.params.assetSize ∧
    0x3B + 2 + 1 * pageRows 8 ≤ background.params.assetSize ∧ 0x3E + 2 + 1 * pageRows 8 ≤ background.params.assetSize ∧
    (∀ k : Nat, k < 1 * pageRows 8 → background.assets.read (0x3B + 2 + k) = 0xFF) ∧
    (∀ X < background.params.width, ∀ Y < 8 * background.params.npages, InSprite 1 3 1 8 X Y →
      plainBit background.assets (0x3E + 2) 1 (X - 1 : Int).toNat (Y - 3 : Int).toNat =
        pixel background.params background.fb X Y) := by
  refine ⟨by decide, by decide, by decide, by decide, by decide, by decide, by decide, by decide, ?_⟩
  decide

/-- T6: A_B with M_B, and A_BC. -/
theorem witness_ExternalAndCombinedMaskGiveTheSameResult :
    HeaderAt (large []).params (large []).assets 0x08 1 8 ∧ HeaderAt (large []).params (large []).assets 0x0C 1 8 ∧
    0x0B ≠ 0 ∧ 0 < 1 ∧ 0x08 + 2 + 1 * (1 * pageRows 8) ≤ (large []).params.assetSize ∧
    0x0B + 1 * (1 * pageRows 8) ≤ (large []).params.assetSize ∧
    0x0C + 2 + 1 * (2 * 1 * pageRows 8) ≤ (large []).params.assetSize ∧
    (∀ g < 1, ∀ pr < pageRows 8, ∀ c < 1,
      (large []).assets.read (0x0C + 2 + g * (2 * 1 * pageRows 8) + 2 * (c + pr * 1)) =
        (large []).assets.read (0x08 + 2 + g * (1 * pageRows 8) + c + pr * 1) ∧
      (large []).assets.read (0x0C + 2 + g * (2 * 1 * pageRows 8) + 2 * (c + pr * 1) + 1) =
        (large []).assets.read (0x0B + g * (1 * pageRows 8) + c + pr * 1)) := by decide

/-- Byte 0x45 is 0x00 and byte 0x3D is 0xFF: two masks for A_B. -/
theorem witness_ExternalMaskOfZerosOrOnesIsAnUnmaskedDraw :
    (large []).Inv ∧ HeaderAt (large []).params (large []).assets 0x08 1 8 ∧
    (0x45 + (0 + 1) * (1 * pageRows 8) ≤ (large []).params.assetSize ∧
      ∀ cell ∈ cells (clip (large []).params 0 3 1 8),
        (large []).assets.read (0x45 + 0 * (1 * pageRows 8) + (cell.2 + cell.1 * 1)) = 0x00) ∧
    (0x3D + (0 + 1) * (1 * pageRows 8) ≤ (large []).params.assetSize ∧
      ∀ cell ∈ cells (clip (large []).params 0 3 1 8),
        (large []).assets.read (0x3D + 0 * (1 * pageRows 8) + (cell.2 + cell.1 * 1)) = 0xFF) := by decide

end Sys2Proof.Machine.Slice0
end

section
/-! SUPPORT. Decoding a canonical encoding, and which descriptors are illegal (spec/30_encoding.md R41, R44). -/

namespace Sys2Proof

theorem lt_of_pointerOk {a : Nat} (h : pointerOk a = true) : a < 4294967296 := of_decide_eq_true h

theorem mod_of_frameOk {f : Nat} (h : frameOk f = true) : f % 256 = f :=
  Nat.mod_eq_of_lt (of_decide_eq_true h)

/-- The command that the canonical encoding holds: a `drawAuto` with a null mask has lost its mask frame (R42, R44). -/
def Instr.canonical : Instr → Instr
  | .drawAuto x y bitmap mask frame maskFrame => .drawAuto x y bitmap mask frame (if mask = 0 then 0 else maskFrame)
  | i => i

/-- Decoding the encoding of a well-formed command gives the command back, up to an ignored mask frame. -/
theorem decode_encode {i : Instr} (h : i.wellFormed = true) : decode (encode i) = .command i.canonical := by
  cases i with
  | drawOverwrite x y bitmap frame
  | drawSelfMasked x y bitmap frame
  | drawErase x y bitmap frame
  | drawPlusMask x y bitmap frame =>
    simp only [Instr.wellFormed, Bool.and_eq_true] at h
    obtain ⟨⟨⟨hx, hy⟩, hb⟩, hf⟩ := h
    simp [encode, decode, Instr.canonical, hx, hy, lt_of_pointerOk hb, mod_of_frameOk hf]
  | drawExternalMask x y bitmap mask frame maskFrame =>
    simp only [Instr.wellFormed, Bool.and_eq_true] at h
    obtain ⟨⟨⟨⟨⟨hx, hy⟩, hb⟩, hm⟩, hf⟩, hmf⟩ := h
    simp [encode, decode, Instr.canonical, hx, hy, lt_of_pointerOk hb, lt_of_pointerOk hm, mod_of_frameOk hf,
      mod_of_frameOk hmf]
  | drawAuto x y bitmap mask frame maskFrame =>
    simp only [Instr.wellFormed, Bool.and_eq_true] at h
    obtain ⟨⟨⟨⟨⟨hx, hy⟩, hb⟩, hm⟩, hf⟩, hmf⟩ := h
    have hmf' : (if mask = 0 then 0 else maskFrame) % 256 = if mask = 0 then 0 else maskFrame := by
      split
      · rfl
      · exact mod_of_frameOk hmf
    simp [encode, decode, Instr.canonical, hx, hy, lt_of_pointerOk hb, lt_of_pointerOk hm, mod_of_frameOk hf, hmf']

/-- A key above 5 names no command (the opcode map of spec/30_encoding.md section 4). -/
theorem decode_illegal_of_key {d : Descriptor} (h : 5 < (d.cmd0 &&& 0xFF0000FF).toNat) :
    ∃ e, decode d = .illegal e := by
  unfold decode
  split
  · exact ⟨_, rfl⟩
  · rename_i hrsv
    obtain ⟨h0, h1⟩ := not_or.mp hrsv
    have hrsv0 : d.rsv0.toNat = 0 := by rw [not_not.mp h0]; rfl
    have hrsv1 : d.rsv1.toNat = 0 := by rw [not_not.mp h1]; rfl
    have hmode : 5 < d.mode.toNat := by
      rw [toNat_key, hrsv0, hrsv1] at h
      exact h
    split
    case h_7 => exact ⟨_, rfl⟩
    all_goals omega

/-- The conditions of R41, each as a mask of `CMD0`, put the key above 5. -/
theorem key_gt_of_reserved {d : Descriptor}
    (h : d.cmd0 &&& 7 = 6 ∨ d.cmd0 &&& 7 = 7 ∨ d.cmd0 &&& 0xF8 ≠ 0 ∨ d.cmd0 &&& 0xFF000000 ≠ 0) :
    5 < (d.cmd0 &&& 0xFF0000FF).toNat := by
  by_contra hle
  have within : ∀ m : Word, 0xFF0000FF &&& m = m →
      d.cmd0 &&& m = BitVec.ofNat 32 (d.cmd0 &&& 0xFF0000FF).toNat &&& m := by
    intro m hm
    rw [BitVec.ofNat_toNat, BitVec.setWidth_eq, BitVec.and_assoc, hm]
  have small : ∀ k < 6, BitVec.ofNat 32 k &&& 7 ≠ 6 ∧ BitVec.ofNat 32 k &&& 7 ≠ 7 ∧
      BitVec.ofNat 32 k &&& 0xF8 = 0 ∧ BitVec.ofNat 32 k &&& 0xFF000000 = 0 := by decide
  obtain ⟨h6, h7, hrsv0, hrsv1⟩ := small (d.cmd0 &&& 0xFF0000FF).toNat (by omega)
  rw [within 7 (by decide), within 0xF8 (by decide), within 0xFF000000 (by decide)] at h
  rcases h with h | h | h | h
  · exact h6 h
  · exact h7 h
  · exact h hrsv0
  · exact h hrsv1

end Sys2Proof
end

section
/-! SUPPORT. `STATUS` after a fault, by its bit 0, and the mask frame that `drawAuto` ignores. -/

namespace Sys2Proof.Machine

theorem statusFault_iff_and_one {v : Word} : statusFault v = true ↔ v &&& 1 = 1 := by
  rw [show v &&& 1 = v &&& 1#32 from rfl, BitVec.and_one_eq_setWidth_ofBool_getLsbD, statusFault]
  cases v.getLsbD 0 <;> decide

/-- The latch on a legal `STATUS` (R84): the first code is kept, and the only legal value without one is 0. -/
theorem latch_of_legal {code : FaultCode} {v : Word} (hl : statusLegal v = true) :
    latch code v = if v &&& 1 = 1 then v else latch code 0 := by
  split
  · exact latch_of_fault (statusFault_iff_and_one.mpr ‹_›)
  · rename_i h1
    rw [status_eq_zero hl (Bool.eq_false_iff.mpr (mt statusFault_iff_and_one.mp h1))]

/-- With a null mask `Auto` is `Unmasked`, whatever the mask frame (R42, R66). -/
theorem exec_drawAuto_null (x y : Int) (bitmap frame maskFrame : Nat) (s : State) :
    exec (.drawAuto x y bitmap 0 frame maskFrame) s = exec (.drawOverwrite x y bitmap frame) s := by
  rw [exec_eq_draw, exec_eq_draw]
  by_cases hh : ∃ w h, HeaderAt s.params s.assets bitmap w h
  · obtain ⟨w, h, hh⟩ := hh
    have hcompose := compose_congr (p := s.params) (assets := s.assets) (assets' := s.assets)
      (pl := planOf s.params (requestOf (.drawAuto x y bitmap 0 frame maskFrame)) ⟨w, h⟩)
      (pl' := planOf s.params (requestOf (.drawOverwrite x y bitmap frame)) ⟨w, h⟩) rfl
      (fun _ _ => drawCell_congr rfl rfl (fun _ => rfl) (fun _ => rfl)) s.fb
    rw [draw_of_header hh, draw_of_header hh, hcompose]
    rfl
  · have hno : ∀ w h, ¬ HeaderAt s.params s.assets bitmap w h := fun w h hw => hh ⟨w, h, hw⟩
    rw [draw_of_no_header hno, draw_of_no_header hno]
    rfl

/-- What encoding drops from a command has no effect. -/
theorem exec_canonical (i : Instr) (s : State) : exec i.canonical s = exec i s := by
  cases i with
  | drawAuto x y bitmap mask frame maskFrame =>
    by_cases hm : mask = 0
    · subst hm
      exact (exec_drawAuto_null ..).trans (exec_drawAuto_null ..).symm
    · rw [Instr.canonical, if_neg hm]
  | drawOverwrite | drawSelfMasked | drawErase | drawExternalMask | drawPlusMask => rfl

end Sys2Proof.Machine
end

section
/-! SUPPORT. The steps that write `CMD0..CMD3` and `GO` (spec/10_state.md R12, R18; spec/30_encoding.md R45). -/

namespace Sys2Proof.Machine

theorem step_go_command {s : State} {v : Word} {rest : List Action} {i : Instr}
    (h : s.host = .write 0x10 .word v :: rest) (hd : decode s.cmd = .command i) :
    step s = exec i (s.setHost rest) := by
  rw [step_go h, hd]

theorem step_go_illegal {s : State} {v : Word} {rest : List Action} {e : DecodeError}
    (h : s.host = .write 0x10 .word v :: rest) (hd : decode s.cmd = .illegal e) :
    step s = .next (raiseFault .illegalCmd (s.setHost rest)) := by
  rw [step_go h, hd]

/-- A full-width write to one of `CMD0..CMD3`. -/
def IsCmdWrite (a : Action) : Prop := ∃ offset ∈ [0x00, 0x04, 0x08, 0x0C], ∃ v, a = .write offset .word v

/-- `CMD0..CMD3` after a `CMD` write. -/
def cmdAfter (c : Descriptor) : Action → Descriptor
  | .write 0x00 .word v => { c with cmd0 := v }
  | .write 0x04 .word v => { c with cmd1 := v }
  | .write 0x08 .word v => { c with cmd2 := v }
  | .write 0x0C .word v => { c with cmd3 := v }
  | _ => c

/-- A `CMD` write changes its register alone (R12). -/
theorem step_cmdWrite {s : State} {a : Action} {rest : List Action} (ha : IsCmdWrite a) (h : s.host = a :: rest) :
    step s = .next ((s.setHost rest).setCmd (cmdAfter s.cmd a)) := by
  obtain ⟨offset, hoff, v, rfl⟩ := ha
  rw [step_action h]
  simp only [List.mem_cons, List.not_mem_nil, or_false] at hoff
  rcases hoff with rfl | rfl | rfl | rfl <;> rfl

/-- A run through pending `CMD` writes leaves the registers as the writes, taken one after the other, make them. -/
theorem run_cmdWrites {writes rest : List Action} (hw : ∀ a ∈ writes, IsCmdWrite a) (n : Nat) {s : State}
    (h : s.host = writes ++ rest) :
    core.run (n + writes.length) s = core.run n ((s.setHost rest).setCmd (writes.foldl cmdAfter s.cmd)) := by
  induction writes generalizing s with
  | nil => rw [show rest = s.host from h.symm]; rfl
  | cons a writes ih =>
    have hstep := step_cmdWrite (hw a (by simp)) h
    rw [List.length_cons, ← Nat.add_assoc, run_succ_of_next hstep, ih (fun b hb => hw b (by simp [hb])) rfl]
    rfl

/-- The four `CMD` writes of a descriptor, in register order. -/
def cmdWrites (d : Descriptor) : List Action :=
  [.write 0x00 .word d.cmd0, .write 0x04 .word d.cmd1, .write 0x08 .word d.cmd2, .write 0x0C .word d.cmd3]

theorem isCmdWrite_of_mem_cmdWrites {d : Descriptor} {a : Action} (h : a ∈ cmdWrites d) : IsCmdWrite a := by
  simp only [cmdWrites, List.mem_cons, List.not_mem_nil, or_false] at h
  rcases h with rfl | rfl | rfl | rfl <;> exact ⟨_, by decide, _, rfl⟩

/-- Two writes of one descriptor go to different registers, or are the same write. -/
theorem cmdAfter_comm {d : Descriptor} {a b : Action} (ha : a ∈ cmdWrites d) (hb : b ∈ cmdWrites d) (c : Descriptor) :
    cmdAfter (cmdAfter c a) b = cmdAfter (cmdAfter c b) a := by
  simp only [cmdWrites, List.mem_cons, List.not_mem_nil, or_false] at ha hb
  rcases ha with rfl | rfl | rfl | rfl <;> rcases hb with rfl | rfl | rfl | rfl <;> rfl

/-- The order of the four writes is free: they leave their descriptor, whatever stood there before (R45). -/
theorem foldl_cmdAfter_of_perm {d : Descriptor} {writes : List Action} (hp : writes.Perm (cmdWrites d))
    (c : Descriptor) : writes.foldl cmdAfter c = d := by
  have hcomm : ∀ a ∈ writes, ∀ b ∈ writes, ∀ c, cmdAfter (cmdAfter c a) b = cmdAfter (cmdAfter c b) a :=
    fun a ha b hb c => cmdAfter_comm (hp.mem_iff.mp ha) (hp.mem_iff.mp hb) c
  calc writes.foldl cmdAfter c = (cmdWrites d).foldl cmdAfter c := hp.foldl_eq' hcomm c
    _ = d := rfl

/-- Four `CMD` writes of a descriptor in any order and a fifth step: the step from the state that holds the descriptor. -/
theorem run_five_of_perm {s : State} {d : Descriptor} {writes rest : List Action} (hp : writes.Perm (cmdWrites d))
    (h : s.host = writes ++ rest) : core.run 5 s = step ((s.setHost rest).setCmd d) := by
  have hrun := run_cmdWrites (fun a ha => isCmdWrite_of_mem_cmdWrites (hp.mem_iff.mp ha)) 1 h
  rw [hp.length_eq, foldl_cmdAfter_of_perm hp, run_one] at hrun
  exact hrun

end Sys2Proof.Machine
end

section
/-! Obligations of the encoding family (spec/30_encoding.md). -/

namespace Sys2Proof.Machine

/-- Settles O8: four commuting register writes leave the descriptor, and `GO` runs it; a well-formed command is what its
encoding decodes to, up to a mask frame that has no effect. -/
theorem cmdWritesInAnyOrderThenGoExecuteTheCommand : Obligations.CmdWritesInAnyOrderThenGoExecuteTheCommand := by
  unfold Obligations.CmdWritesInAnyOrderThenGoExecuteTheCommand
  refine (and_iff_left_of_imp fun any_order s i rest hi hh => ?_).mpr fun s d writes rest hp hh => ?_
  · have hrun := any_order s (encode i) (cmdWrites (encode i)) rest (List.Perm.refl _) hh
    rw [decode_encode hi] at hrun
    exact hrun.trans (exec_canonical i _)
  · rw [run_five_of_perm (d := d) hp hh]
    cases hd : decode d with
    | command i => exact step_go_command rfl hd
    | illegal e => exact step_go_illegal rfl hd

/-- Settles O23: `CMD0` alone makes the descriptor illegal, and the latch on a legal `STATUS` gives the value. -/
theorem illegalDescriptorFaultsBeforeAnythingElse : Obligations.IllegalDescriptorFaultsBeforeAnythingElse := by
  unfold Obligations.IllegalDescriptorFaultsBeforeAnythingElse
  intro s v rest hs hh hcmd0
  obtain ⟨-, -, -, -, -, hstatus⟩ := hs
  obtain ⟨e, he⟩ := decode_illegal_of_key (key_gt_of_reserved hcmd0)
  rw [step_go_illegal hh he, raiseFault, State.setHost_status, latch_of_legal hstatus, latch_zero]
  rfl

end Sys2Proof.Machine
end

section
/-! SUPPORT. What the common pipeline owes to its operands: the null bitmap, the resolved mode, and the shift as numbers
(spec/40_common_pipeline.md R52, R62, R66). -/

namespace Sys2Proof.Machine

/-- The test on the bitmap reference comes before every other (R52, R85). -/
theorem verdict_of_null_bitmap {p : Params} {assets : Memory} {r : Request} (h : r.bptr = 0) :
    verdict p assets r = .skipped :=
  if_pos h

/-- A draw sees its mode only as resolved (R66). -/
theorem draw_congr_resolveMode {r : Request} {mode : DrawMode} (h : resolveMode mode r.mptr = resolveMode r.mode r.mptr)
    (s : State) : draw { r with mode := mode } s = draw r s := by
  have hplan : planOf s.params { r with mode := mode } = planOf s.params r := by
    funext hd
    simp only [planOf, h]
  simp only [draw, verdict, hplan, h]

/-- With a mask reference `Auto` is `ExternalMask` (R66). -/
theorem exec_drawAuto_mask {mask : Nat} (hm : mask ≠ 0) (x y : Int) (bitmap frame maskFrame : Nat) (s : State) :
    exec (.drawAuto x y bitmap mask frame maskFrame) s = exec (.drawExternalMask x y bitmap mask frame maskFrame) s := by
  have hmode : resolveMode .auto mask = resolveMode .externalMask mask := if_neg hm
  rw [exec_eq_draw, exec_eq_draw]
  exact draw_congr_resolveMode (r := requestOf (.drawExternalMask x y bitmap mask frame maskFrame)) hmode s

/-- Every command completes and leaves `CMD0..CMD3` alone. -/
theorem exec_keeps_cmd (i : Instr) (s : State) : ∃ t, exec i s = .next t ∧ t.cmd = s.cmd := by
  rcases exec_cases i s with ⟨-, h⟩ | ⟨code, -, h⟩ | ⟨pl, -, h⟩
  · exact ⟨_, h, rfl⟩
  · exact ⟨_, h, State.setStatus_cmd _ _⟩
  · exact ⟨_, h, State.setFb_cmd _ _⟩

/-- 16 bits hold every shifted byte. -/
theorem toNat_shifted (b : Byte) {n : Nat} (hn : n ≤ 8) : (shifted b n).toNat = b.toNat * 2 ^ n := by
  have hfits : b.toNat * 2 ^ n < 2 ^ 8 * 2 ^ 8 :=
    Nat.mul_lt_mul_of_lt_of_le b.isLt (Nat.pow_le_pow_right (by decide) hn) (by decide)
  rw [shifted, BitVec.toNat_shiftLeft, BitVec.toNat_setWidth_of_le (by decide), Nat.shiftLeft_eq]
  exact Nat.mod_eq_of_lt hfits

theorem toNat_lo8 (v : Half) : (lo8 v).toNat = v.toNat % 256 := by
  rw [lo8, BitVec.extractLsb'_toNat, Nat.shiftRight_zero]

theorem toNat_hi8 (v : Half) : (hi8 v).toNat = v.toNat / 256 := by
  rw [hi8, BitVec.extractLsb'_toNat, Nat.shiftRight_eq_div_pow]
  omega

end Sys2Proof.Machine
end

section
/-! Obligations of the common pipeline (spec/40_common_pipeline.md). -/

namespace Sys2Proof.Machine

/-- Settles O21: a null bitmap ends the stages as skipped, in any mode. -/
theorem nullBitmapIsASilentNoOp : Obligations.NullBitmapIsASilentNoOp := by
  unfold Obligations.NullBitmapIsASilentNoOp
  intro i s h
  exact exec_of_skipped (verdict_of_null_bitmap h)

/-- Settles O30: the division identity, with the rule's own values computed. -/
theorem startPageIsFloorAndYOffsetIsModulo : Obligations.StartPageIsFloorAndYOffsetIsModulo := by
  unfold Obligations.StartPageIsFloorAndYOffsetIsModulo
  refine ⟨fun y => ⟨(eight_startPage_add_yOffset y).symm, Nat.le_of_lt_succ (yOffset_lt y)⟩, ?_⟩
  decide

/-- Settles O32: the exact shift, cut at 256; the high byte loses the factor `2 ^ n` common to `b * 2 ^ n` and 256. -/
theorem shiftSplitsIntoLowAndHighByte : Obligations.ShiftSplitsIntoLowAndHighByte := by
  unfold Obligations.ShiftSplitsIntoLowAndHighByte
  intro b n hn
  have hshift := toNat_shifted b hn.le
  refine ⟨hshift, by rw [toNat_lo8, hshift], ?_⟩
  have h256 : 256 = 2 ^ (8 - n) * 2 ^ n := by rw [← Nat.pow_add, Nat.sub_add_cancel hn.le]
  rw [toNat_hi8, hshift, h256, Nat.mul_div_mul_right _ _ (Nat.two_pow_pos n)]

/-- Settles O42: the two resolutions of `Auto`, and that no command touches `CMD0..CMD3`. -/
theorem autoIsResolvedByTheMaskReferenceAlone : Obligations.AutoIsResolvedByTheMaskReferenceAlone := by
  unfold Obligations.AutoIsResolvedByTheMaskReferenceAlone
  intro s x y bitmap mask frame maskFrame
  exact ⟨fun hm => exec_drawAuto_mask hm x y bitmap frame maskFrame s, exec_drawAuto_null x y bitmap frame maskFrame s,
    exec_keeps_cmd _ s⟩

end Sys2Proof.Machine
end

section
/-! SUPPORT. The bits a merge keeps, and the own-mask of `Unmasked` (spec/41_unmasked_family.md R68). -/

namespace Sys2Proof.Machine

/-- Every operator keeps the bits of `old` at which both half-bytes are 0 (R68). -/
theorem getLsbD_merge_of_clear (mode : MergeMode) (old : Byte) {s k : Byte} {i : Nat} (h : i < 8)
    (hs : s.getLsbD i = false) (hk : k.getLsbD i = false) : (merge mode old s k).getLsbD i = old.getLsbD i := by
  rw [getLsbD_merge mode old s k h, hs, hk, mergeBit_false]

theorem maskByte_of_unmasked {pl : Plan} (h : pl.mode = .unmasked) (assets : Memory) (pr c : Nat) :
    maskByte pl assets pr c = 0xFF := by
  simp only [maskByte, h]

end Sys2Proof.Machine
end

section
/-! Obligations of the unmasked family (spec/41_unmasked_family.md). -/

namespace Sys2Proof.Machine

/-- Settles O35: each operator acts on the pixel at its bit alone, and the table of own-masks is computed. -/
theorem mergeOperatorsAndOwnMaskBitByBit : Obligations.MergeOperatorsAndOwnMaskBitByBit := by
  unfold Obligations.MergeOperatorsAndOwnMaskBitByBit
  refine ⟨fun old sB kB b hb => ?_, fun _ assets pr c hmode => maskByte_of_unmasked hmode assets pr c, ?_⟩
  · have bitwise (mode : MergeMode) := getLsbD_merge mode old sB kB hb
    exact ⟨bitwise .unmasked, bitwise .selfMasked, bitwise .erase, bitwise .externalMask, bitwise .combinedMask,
      fun mode hs hk => getLsbD_merge_of_clear mode old hb hs hk⟩
  · decide

end Sys2Proof.Machine
end

section
/-! SUPPORT. Which draws are skipped (spec/60_exceptions.md R81), the fields of a latched `STATUS`, and what a command or
a step that is no reset can do to `STATUS` (R84). -/

namespace Sys2Proof.Machine

/-! ### The skipped draws -/

/-- Once the header is read, only the early exit skips a draw: every later stage faults or draws (R56, R85). -/
theorem verdict_skipped_iff_offScreen {p : Params} {assets : Memory} {r : Request} {w h : Nat}
    (hh : HeaderAt p assets r.bptr w h) : verdict p assets r = .skipped ↔ OffScreen p r.x r.y w h := by
  rw [verdict_of_header hh, ← offScreen_iff]
  constructor
  · intro hv
    by_contra hon
    rw [if_neg hon] at hv
    split_ifs at hv
  · exact fun hoff => if_pos hoff

/-- A draw is skipped on a null bitmap or an off-screen sprite, and on nothing else (R81). -/
theorem verdict_skipped_iff {p : Params} {assets : Memory} {r : Request} :
    verdict p assets r = .skipped ↔
      r.bptr = 0 ∨ ∃ w h, HeaderAt p assets r.bptr w h ∧ OffScreen p r.x r.y w h := by
  constructor
  · intro hv
    by_cases hh : ∃ w h, HeaderAt p assets r.bptr w h
    · obtain ⟨w, h, hh⟩ := hh
      exact .inr ⟨w, h, hh, (verdict_skipped_iff_offScreen hh).mp hv⟩
    · have hno : ∀ w h, ¬ HeaderAt p assets r.bptr w h := fun w h hw => hh ⟨w, h, hw⟩
      rw [verdict_of_no_header hno] at hv
      split_ifs at hv with h0
      exact .inl h0
  · rintro (h0 | ⟨w, h, hh, hoff⟩)
    · exact verdict_of_null_bitmap h0
    · exact (verdict_skipped_iff_offScreen hh).mpr hoff

/-! ### The fields of a latched `STATUS` -/

/-- The first fault writes `CAUSE` and `FAULT` below the reserved bits. -/
theorem latch_of_noFault (code : FaultCode) {v : Word} (h : statusFault v = false) :
    latch code v = statusReserved v ++ code.code ++ 1#1 :=
  if_neg (Bool.eq_false_iff.mp h)

/-- The first fault leaves its code in `CAUSE`. -/
theorem statusCause_latch_of_noFault (code : FaultCode) {v : Word} (h : statusFault v = false) :
    statusCause (latch code v) = code.code := by
  rw [latch_of_noFault code h, statusCause]
  exact (BitVec.extractLsb'_append_eq_of_le (by decide)).trans BitVec.extractLsb'_append_eq_right

/-- The latch keeps the reserved bits, whether or not it records the code. -/
theorem statusReserved_latch (code : FaultCode) (v : Word) : statusReserved (latch code v) = statusReserved v := by
  cases h : statusFault v with
  | true => rw [latch_of_fault h]
  | false =>
    rw [latch_of_noFault code h]
    exact (BitVec.extractLsb'_append_eq_of_le (by decide)).trans BitVec.extractLsb'_append_eq_left

/-! ### What a command and a step do to `STATUS` -/

/-- A command keeps `STATUS` or latches a code in it. -/
theorem exec_status {i : Instr} {s t : State} (h : exec i s = .next t) :
    t.status = s.status ∨ ∃ code, t.status = latch code s.status := by
  rcases exec_cases i s with ⟨-, hx⟩ | ⟨code, -, hx⟩ | ⟨pl, -, hx⟩
  · cases h.symm.trans hx
    exact .inl rfl
  · cases h.symm.trans hx
    exact .inr ⟨code, rfl⟩
  · cases h.symm.trans hx
    exact .inl rfl

/-- A step that is no reset keeps `STATUS` or latches a code in it. -/
theorem step_status_of_ne_reset {s t : State} (h : step s = .next t) (hr : s.host.head? ≠ some .reset) :
    t.status = s.status ∨ ∃ code, t.status = latch code s.status := by
  rcases step_next_cases h with ⟨-, rfl⟩ | ⟨a, rest, hh, hcase⟩
  · exact .inl rfl
  · rcases hcase with rfl | ⟨d, rfl⟩ | ⟨v, rfl⟩ | ⟨address, v, -, -, rfl⟩ | ⟨rfl, -⟩ | ⟨v, i, -, -, hx⟩ |
      ⟨v, e, -, -, rfl⟩
    · exact .inl rfl
    · exact .inl rfl
    · exact .inl rfl
    · exact .inl rfl
    · exact absurd (congrArg List.head? hh) hr
    · exact exec_status (s := s.setHost rest) hx
    · exact .inr ⟨.illegalCmd, rfl⟩

end Sys2Proof.Machine
end

section
/-! Obligations on the ends other than `Done` (spec/60_exceptions.md). -/

namespace Sys2Proof.Machine

/-- Settles O22: the stages skip on the null bitmap or the early exit alone, and a skipped command answers its state. -/
theorem exactlyTwoConditionsSkipACommand : Obligations.ExactlyTwoConditionsSkipACommand := by
  unfold Obligations.ExactlyTwoConditionsSkipACommand
  exact fun i s => ⟨verdict_skipped_iff, exec_of_skipped⟩

/-- Settles O27: a faulting command latches its code, any step but a reset keeps or latches `STATUS`, and the latch keeps
a recorded fault. -/
theorem firstFaultIsLatchedUntilReset : Obligations.FirstFaultIsLatchedUntilReset := by
  unfold Obligations.FirstFaultIsLatchedUntilReset
  constructor
  · intro i s code hv
    exact ⟨latch code s.status, exec_of_fault hv, latch_of_fault, fun hnone =>
      ⟨statusFault_latch code _, statusCause_latch_of_noFault code hnone, statusReserved_latch code _⟩⟩
  · intro s t hstep hfault hr
    rcases step_status_of_ne_reset hstep hr with hkept | ⟨code, hlatched⟩
    · exact hkept
    · exact hlatched.trans (latch_of_fault hfault)

end Sys2Proof.Machine
end

section
/-! SUPPORT. The legal states are kept by each way a step can go on (spec/10_state.md section 4.1). -/

namespace Sys2Proof.Machine

theorem State.Inv.params_wf {s : State} (hs : s.Inv) : s.params.wf = true := hs.1

theorem State.Inv.fb_wf {s : State} (hs : s.Inv) : s.fb.wf = true := hs.2.1

theorem State.Inv.status_legal {s : State} (hs : s.Inv) : statusLegal s.status = true := hs.2.2.2.2.2

/-- A command keeps the legal states. -/
theorem exec_inv {i : Instr} {s t : State} (hs : s.Inv) (h : exec i s = .next t) : t.Inv := by
  rw [exec_eq_draw] at h
  exact draw_inv hs h

/-- A latched fault keeps the legal states (R84). -/
theorem raiseFault_inv {s : State} (hs : s.Inv) (code : FaultCode) : (raiseFault code s).Inv := by
  obtain ⟨hp, hfb, hbl, ha, hab, hst⟩ := hs
  exact ⟨hp, hfb, hbl, ha, hab, statusLegal_latch hst⟩

/-- A reset keeps the legal states: what it does not touch is legal, what it clears is empty (R96). -/
theorem resetBlock_inv {s : State} (hs : s.Inv) : (resetBlock s).Inv := by
  obtain ⟨hp, -, -, ha, hab, -⟩ := hs
  exact ⟨hp, rfl, rfl, ha, hab, (by decide : statusLegal 0 = true)⟩

/-- A store at an address that exists keeps the legal states. -/
theorem storeAsset_inv {s : State} (hs : s.Inv) {address : Nat} (hlt : address < s.params.assetSize) (v : Byte) :
    (s.setAssets (s.assets.write address v)).Inv := by
  obtain ⟨hp, hfb, hbl, ha, hab, hst⟩ := hs
  exact ⟨hp, hfb, hbl, Memory.wf_write ha _ _, Memory.below_write hab hlt, hst⟩

end Sys2Proof.Machine
end

section
/-! Obligations: the tier 3 statements on the encoding and on the legal states. -/

namespace Sys2Proof.Machine

/-- Settles O1: decoding an encoding gives the canonical command, which is the command itself unless a mask frame is
ignored. -/
theorem decodingAnEncodedCommandGivesItBack : Obligations.DecodingAnEncodedCommandGivesItBack := by
  unfold Obligations.DecodingAnEncodedCommandGivesItBack
  refine ⟨fun i hi hmask => ?_, fun x y bitmap frame maskFrame hi => decode_encode hi⟩
  have hcanonical : i.canonical = i := by
    cases i with
    | drawAuto x y bitmap mask frame maskFrame =>
      by_cases hm : mask = 0
      · subst hm
        rw [hmask _ _ _ _ _ rfl]
        rfl
      · rw [Instr.canonical, if_neg hm]
    | drawOverwrite | drawSelfMasked | drawErase | drawExternalMask | drawPlusMask => rfl
  rw [decode_encode hi, hcanonical]

/-- Settles O14: each way a step can go on keeps the legal states. -/
theorem everyStepKeepsTheLegalStates : Obligations.EveryStepKeepsTheLegalStates := by
  unfold Obligations.EveryStepKeepsTheLegalStates
  intro s t hs hstep
  rcases step_next_cases hstep with ⟨-, rfl⟩ | ⟨a, rest, -, hcase⟩
  · exact hs
  · have hs' : (s.setHost rest).Inv := hs
    rcases hcase with rfl | ⟨d, rfl⟩ | ⟨v, rfl⟩ | ⟨address, v, -, hlt, rfl⟩ | ⟨-, rfl⟩ | ⟨v, i, -, -, hx⟩ |
      ⟨v, e, -, -, rfl⟩
    · exact hs'
    · exact hs'
    · exact hs'
    · exact storeAsset_inv hs' hlt v
    · exact resetBlock_inv hs'
    · exact exec_inv hs' hx
    · exact raiseFault_inv hs' .illegalCmd

end Sys2Proof.Machine
end

section
/-! SUPPORT. What decoding reads, what a decoded command is, and the field `MASK_FRAME` on its own
(spec/30_encoding.md R36, R42, R44). -/

namespace Sys2Proof

variable (d : Descriptor)

/-! ### `MASK_FRAME` as bits 23:16 of `CMD0` -/

/-- `CMD0` with another value in `MASK_FRAME`. -/
def setMaskFrame (w : Word) (k : Byte) : Word := (w &&& 0xFF00FFFF#32) ||| (k.setWidth 32 <<< 16)

theorem getLsbD_setMaskFrame (w : Word) (k : Byte) {i : Nat} (hi : i < 32) :
    (setMaskFrame w k).getLsbD i = if 16 ≤ i ∧ i < 24 then k.getLsbD (i - 16) else w.getLsbD i := by
  have hmask : ∀ i < 32, (0xFF00FFFF#32).getLsbD i = !(decide (16 ≤ i) && decide (i < 24)) := by decide
  rw [setMaskFrame, BitVec.getLsbD_or, BitVec.getLsbD_and, hmask i hi, BitVec.getLsbD_shiftLeft,
    BitVec.getLsbD_setWidth]
  split
  · rename_i h
    simp [h, hi, show ¬ i < 16 by omega, show i - 16 < 32 by omega]
  · by_cases hlow : i < 16
    · simp [hlow, show ¬ 16 ≤ i by omega]
    · simp [show ¬ i < 24 by omega, BitVec.getLsbD_of_ge k (i - 16) (by omega)]

/-- Setting `MASK_FRAME` leaves every field below and above it. -/
theorem extractLsb'_setMaskFrame (w : Word) (k : Byte) {start len : Nat}
    (h : start + len ≤ 16 ∨ 24 ≤ start ∧ start + len ≤ 32) :
    (setMaskFrame w k).extractLsb' start len = w.extractLsb' start len := by
  refine BitVec.eq_of_getLsbD_eq fun i hi => ?_
  rw [BitVec.getLsbD_extractLsb', BitVec.getLsbD_extractLsb', getLsbD_setMaskFrame w k (by omega), if_neg (by omega)]

theorem setMaskFrame_self (w : Word) : setMaskFrame w (w.extractLsb' 16 8) = w := by
  refine BitVec.eq_of_getLsbD_eq fun i hi => ?_
  rw [getLsbD_setMaskFrame w _ hi]
  split
  · rw [BitVec.getLsbD_extractLsb', decide_eq_true (by omega), Bool.true_and, show 16 + (i - 16) = i by omega]
  · rfl

theorem setMaskFrame_zero (w : Word) : setMaskFrame w 0 = w &&& 0xFF00FFFF := by
  rw [setMaskFrame, show ((0 : Byte).setWidth 32 <<< 16 : Word) = 0#32 from by decide, BitVec.or_zero]
  rfl

/-! ### The decoder -/

theorem Descriptor.frame_eq : d.frame = d.cmd0.toNat / 256 % 256 := by
  rw [Descriptor.frame, BitVec.extractLsb'_toNat, Nat.shiftRight_eq_div_pow]

theorem Descriptor.maskFrame_eq : d.maskFrame = d.cmd0.toNat / 65536 % 256 := by
  rw [Descriptor.maskFrame, BitVec.extractLsb'_toNat, Nat.shiftRight_eq_div_pow]

theorem Descriptor.mode_toNat_eq : d.mode.toNat = (d.cmd0 &&& 7).toNat := by
  rw [Descriptor.mode, BitVec.extractLsb'_toNat, BitVec.toNat_and, Nat.shiftRight_zero]
  exact (Nat.and_two_pow_sub_one_eq_mod d.cmd0.toNat 3).symm

variable {d}

/-- What a decoded command is: the reserved fields are 0, and the command of the mode holds the fields it uses. -/
theorem decode_command {i : Instr} (h : decode d = .command i) :
    d.rsv0 = 0 ∧ d.rsv1 = 0 ∧
    ((d.mode.toNat = 0 ∧ i = .drawOverwrite d.x d.y d.bitmapPtr d.frame) ∨
     (d.mode.toNat = 1 ∧ i = .drawSelfMasked d.x d.y d.bitmapPtr d.frame) ∨
     (d.mode.toNat = 2 ∧ i = .drawErase d.x d.y d.bitmapPtr d.frame) ∨
     (d.mode.toNat = 3 ∧ i = .drawExternalMask d.x d.y d.bitmapPtr d.maskPtr d.frame d.maskFrame) ∨
     (d.mode.toNat = 4 ∧ i = .drawPlusMask d.x d.y d.bitmapPtr d.frame) ∨
     (d.mode.toNat = 5 ∧ i = .drawAuto d.x d.y d.bitmapPtr d.maskPtr d.frame d.maskFrame)) := by
  unfold decode at h
  split at h
  · exact absurd h (by simp)
  · rename_i hrsv
    obtain ⟨h0, h1⟩ := not_or.mp hrsv
    refine ⟨not_not.mp h0, not_not.mp h1, ?_⟩
    split at h
    case h_7 => exact absurd h (by simp)
    all_goals
      rename_i hmode
      obtain rfl := Decoded.command.inj h
      simp [hmode]

/-- Outside modes 3 and 5 the decoder looks at neither `MASK_FRAME` nor `MASK_PTR` (R42). -/
theorem decode_setMaskFrame (hmode : d.mode.toNat ≠ 3 ∧ d.mode.toNat ≠ 5) (k : Byte) (maskPtr : Word) :
    decode { d with cmd0 := setMaskFrame d.cmd0 k, cmd3 := maskPtr } = decode d := by
  have hm : (setMaskFrame d.cmd0 k).extractLsb' 0 3 = d.cmd0.extractLsb' 0 3 := extractLsb'_setMaskFrame _ _ (by omega)
  have h0 : (setMaskFrame d.cmd0 k).extractLsb' 3 5 = d.cmd0.extractLsb' 3 5 := extractLsb'_setMaskFrame _ _ (by omega)
  have hf : (setMaskFrame d.cmd0 k).extractLsb' 8 8 = d.cmd0.extractLsb' 8 8 := extractLsb'_setMaskFrame _ _ (by omega)
  have h1 : (setMaskFrame d.cmd0 k).extractLsb' 24 8 = d.cmd0.extractLsb' 24 8 :=
    extractLsb'_setMaskFrame _ _ (by omega)
  simp only [Descriptor.mode] at hmode
  simp only [decode, Descriptor.mode, Descriptor.rsv0, Descriptor.rsv1, Descriptor.frame, Descriptor.x, Descriptor.y,
    Descriptor.bitmapPtr, hm, h0, h1, hf]
  refine if_congr Iff.rfl rfl ?_
  split
  case h_4 h => exact absurd h hmode.1
  case h_6 h => exact absurd h hmode.2
  all_goals rfl

/-! ### The fields of a descriptor are in the ranges of R44 -/

theorem coordOk_toInt (v : BitVec 16) : coordOk v.toInt = true := by
  have h1 := BitVec.le_toInt v
  have h2 := BitVec.toInt_lt (x := v)
  simp only [coordOk, Bool.and_eq_true, decide_eq_true_eq]
  omega

theorem pointerOk_toNat (v : Word) : pointerOk v.toNat = true := decide_eq_true v.isLt

theorem frameOk_toNat (v : Byte) : frameOk v.toNat = true := decide_eq_true v.isLt

/-- Every decoded command is well-formed. -/
theorem wellFormed_of_decode {i : Instr} (h : decode d = .command i) : i.wellFormed = true := by
  have hx : coordOk d.x = true := coordOk_toInt _
  have hy : coordOk d.y = true := coordOk_toInt _
  have hb : pointerOk d.bitmapPtr = true := pointerOk_toNat _
  have hm : pointerOk d.maskPtr = true := pointerOk_toNat _
  have hf : frameOk d.frame = true := frameOk_toNat _
  have hmf : frameOk d.maskFrame = true := frameOk_toNat _
  obtain ⟨-, -, hcase⟩ := decode_command h
  rcases hcase with ⟨-, rfl⟩ | ⟨-, rfl⟩ | ⟨-, rfl⟩ | ⟨-, rfl⟩ | ⟨-, rfl⟩ | ⟨-, rfl⟩ <;>
    simp [Instr.wellFormed, hx, hy, hb, hm, hf, hmf]

/-! ### Packing the fields of a descriptor again -/

/-- `CMD0` packed again from the mode and the frame of a descriptor whose reserved bits are 0. -/
theorem packDescriptor_cmd0_of_fields (h0 : d.rsv0 = 0) (h1 : d.rsv1 = 0) (x y : Int) (bitmap mask : Nat) (k : Byte) :
    (packDescriptor d.mode.toNat x y bitmap mask d.frame k.toNat).cmd0 = setMaskFrame d.cmd0 k := by
  have reserved0 : ∀ j < 5, d.cmd0.getLsbD (3 + j) = false := fun j hj => by
    simpa [Descriptor.rsv0, hj] using congrArg (fun b => b.getLsbD j) h0
  have reserved1 : ∀ j < 8, d.cmd0.getLsbD (24 + j) = false := fun j hj => by
    simpa [Descriptor.rsv1, hj] using congrArg (fun b => b.getLsbD j) h1
  refine BitVec.eq_of_getLsbD_eq fun i hi => ?_
  rw [getLsbD_packDescriptor_cmd0, getLsbD_setMaskFrame _ _ hi]
  simp only [Descriptor.mode, Descriptor.frame, BitVec.ofNat_toNat, BitVec.setWidth_eq, BitVec.getLsbD_extractLsb']
  split_ifs
  · omega
  · simp [*]
  · omega
  · have := reserved0 (i - 3) ‹_›
    rw [show 3 + (i - 3) = i by omega] at this
    exact this.symm
  · omega
  · simp [*, show 8 + (i - 3 - 5) = i by omega]
  · rw [show i - 3 - 5 - 8 = i - 16 by omega]
  · omega
  · omega
  · have := reserved1 (i - 24) (by omega)
    rw [show 24 + (i - 24) = i by omega] at this
    exact this.symm

theorem packDescriptor_cmd1_of_fields (mode bitmap mask frame maskFrame : Nat) :
    (packDescriptor mode d.x d.y bitmap mask frame maskFrame).cmd1 = d.cmd1 := by
  refine BitVec.eq_of_getLsbD_eq fun i hi => ?_
  rw [getLsbD_packDescriptor_cmd1]
  simp only [Descriptor.x, Descriptor.y, BitVec.ofInt_toInt, BitVec.getLsbD_extractLsb']
  split
  · simp [*]
  · simp [show 16 + (i - 16) = i by omega, show i - 16 < 16 by omega]

theorem packDescriptor_cmd2_of_fields (mode : Nat) (x y : Int) (mask frame maskFrame : Nat) :
    (packDescriptor mode x y d.bitmapPtr mask frame maskFrame).cmd2 = d.cmd2 := by
  simp [packDescriptor, Descriptor.bitmapPtr]

/-- The fields of a descriptor packed again, with any value in `MASK_FRAME` and any in `MASK_PTR`. -/
theorem packDescriptor_of_fields (h0 : d.rsv0 = 0) (h1 : d.rsv1 = 0) (mask : Nat) (k : Byte) :
    packDescriptor d.mode.toNat d.x d.y d.bitmapPtr mask d.frame k.toNat =
      { d with cmd0 := setMaskFrame d.cmd0 k, cmd3 := BitVec.ofNat 32 mask } := by
  rw [Descriptor.mk.injEq]
  exact ⟨packDescriptor_cmd0_of_fields h0 h1 .., packDescriptor_cmd1_of_fields .., packDescriptor_cmd2_of_fields ..,
    rfl⟩

/-- All fields packed again give the descriptor back. -/
theorem packDescriptor_self (h0 : d.rsv0 = 0) (h1 : d.rsv1 = 0) :
    packDescriptor d.mode.toNat d.x d.y d.bitmapPtr d.maskPtr d.frame d.maskFrame = d := by
  rw [Descriptor.maskFrame, packDescriptor_of_fields h0 h1, setMaskFrame_self, Descriptor.maskPtr,
    BitVec.ofNat_toNat, BitVec.setWidth_eq]

/-- Packed without its mask fields, a descriptor has 0 in both. -/
theorem packDescriptor_without_mask (h0 : d.rsv0 = 0) (h1 : d.rsv1 = 0) :
    packDescriptor d.mode.toNat d.x d.y d.bitmapPtr 0 d.frame 0 =
      { d with cmd0 := d.cmd0 &&& 0xFF00FFFF, cmd3 := 0 } := by
  rw [← setMaskFrame_zero]
  exact packDescriptor_of_fields h0 h1 0 0

end Sys2Proof
end

section
/-! Obligations of the encoding (spec/30_encoding.md): fields and ignored fields. -/

namespace Sys2Proof.Machine

/-- Settles O2: a key up to 5 is the mode with the reserved bits 0, and each field is a part of its register word. -/
theorem decodeReadsEveryFieldOfTheDescriptor : Obligations.DecodeReadsEveryFieldOfTheDescriptor := by
  unfold Obligations.DecodeReadsEveryFieldOfTheDescriptor
  intro d
  refine ⟨?_, ?_, ?_, ?_, ?_, ?_, decode_illegal_of_key⟩
  all_goals
    intro hkey
    obtain ⟨h0, h1, hmode⟩ := reserved_of_key_le d (by rw [hkey]; decide)
    rw [hkey] at hmode
    simp [decode, h0, h1, hmode, d.x_eq_sext16, d.y_eq_sext16, d.frame_eq, d.maskFrame_eq, Descriptor.bitmapPtr,
      Descriptor.maskPtr]

/-- Settles O4: the modes without a mask do not read the mask fields, and a `drawAuto` with a null mask is the
`drawOverwrite` of its other operands. -/
theorem ignoredMaskFieldsHaveNoEffect : Obligations.IgnoredMaskFieldsHaveNoEffect := by
  unfold Obligations.IgnoredMaskFieldsHaveNoEffect
  refine ⟨fun d k maskPtr hmode => decode_setMaskFrame ?_ k maskPtr, fun x y bitmap frame maskFrame maskFrame' s => ?_⟩
  · rw [d.mode_toNat_eq]
    rcases hmode with h | h | h | h <;> rw [h] <;> decide
  · exact (exec_drawAuto_null ..).trans (exec_drawAuto_null ..).symm

/-- Settles O5: a decoded command holds the fields of its descriptor, and packing them again restores all but the
ignored ones. -/
theorem reencodingClearsOnlyIgnoredFields : Obligations.ReencodingClearsOnlyIgnoredFields := by
  unfold Obligations.ReencodingClearsOnlyIgnoredFields
  intro d i hd
  refine ⟨wellFormed_of_decode hd, ?_⟩
  obtain ⟨h0, h1, hcase⟩ := decode_command hd
  have hself := packDescriptor_self h0 h1
  have hcleared := packDescriptor_without_mask h0 h1
  rcases hcase with ⟨hmode, rfl⟩ | ⟨hmode, rfl⟩ | ⟨hmode, rfl⟩ | ⟨hmode, rfl⟩ | ⟨hmode, rfl⟩ | ⟨hmode, rfl⟩ <;>
    rw [hmode] at hself hcleared
  · exact hcleared
  · exact hcleared
  · exact hcleared
  · exact hself
  · exact hcleared
  · simp only [encode]
    split
    · rename_i hnull
      have hmask : d.cmd3 = 0 := BitVec.eq_of_toNat_eq hnull
      rw [hnull, hcleared, hmask]
    · exact hself

/-- Settles O3: the decoder, run on the words. -/
theorem wordsOfTheSpecDecodeToTheirCommands : Obligations.WordsOfTheSpecDecodeToTheirCommands := by
  unfold Obligations.WordsOfTheSpecDecodeToTheirCommands
  decide

end Sys2Proof.Machine
end

section
/-! SUPPORT. The steps of the command port, action by action (spec/10_state.md section 4.1), and the legal values of
`STATUS`. -/

namespace Sys2Proof.Machine

/-- A register read leaves the value in the response (log entry 4). -/
theorem step_read {s : State} {offset : Nat} {width : AccessWidth} {rest : List Action} {r : Register}
    (hr : selectRegister offset width = .ok r) (h : s.host = .read offset width :: rest) :
    step s = .next ((s.setHost rest).setResponse (.word (registerValue r s))) := by
  rw [step_action h]
  simp only [accept, hr]
  cases r <;> rfl

theorem step_write_refused {s : State} {offset : Nat} {width : AccessWidth} {v : Word} {rest : List Action}
    {why : Refusal} (hr : selectRegister offset width = .error why) (h : s.host = .write offset width v :: rest) :
    step s = .refused why := by
  rw [step_action h]
  simp only [accept, hr]

theorem step_read_refused {s : State} {offset : Nat} {width : AccessWidth} {rest : List Action}
    {why : Refusal} (hr : selectRegister offset width = .error why) (h : s.host = .read offset width :: rest) :
    step s = .refused why := by
  rw [step_action h]
  simp only [accept, hr]

/-- A write to `STATUS` is ignored (R13). -/
theorem step_write_status {s : State} {v : Word} {rest : List Action} (h : s.host = .write 0x14 .word v :: rest) :
    step s = .next (s.setHost rest) := by
  rw [step_action h]
  rfl

theorem step_flush {s : State} {rest : List Action} (h : s.host = .flush :: rest) :
    step s = .next ((s.setHost rest).setResponse (.frame (s.fb.bytes s.params.fbSize))) := by
  rw [step_action h]
  rfl

theorem step_reset {s : State} {rest : List Action} (h : s.host = .reset :: rest) :
    step s = .next (resetBlock (s.setHost rest)) := by
  rw [step_action h]
  rfl

theorem step_storeAsset {s : State} {a : Nat} {v : Byte} {rest : List Action} (h : s.host = .storeAsset a v :: rest) :
    step s = if a < s.params.assetSize then .next ((s.setHost rest).setAssets (s.assets.write a v))
      else .fault .noSuchAssetByte := by
  rw [step_action h]
  by_cases hlt : a < s.params.assetSize
  · simp only [accept, State.setHost_params, State.setHost_assets, hlt, if_true]
  · simp only [accept, State.setHost_params, hlt, if_false]

/-- The register map, as a list of offsets (spec/10_state.md section 4.1). -/
theorem registerAt_eq_none {offset : Nat} (h : offset ∉ [0x00, 0x04, 0x08, 0x0C, 0x10, 0x14]) :
    registerAt offset = none := by
  unfold registerAt
  split <;> simp_all

/-- An access outside the map, or a narrow one, names no register (R15). -/
theorem selectRegister_error {offset : Nat} {width : AccessWidth}
    (h : width ≠ .word ∨ offset ∉ [0x00, 0x04, 0x08, 0x0C, 0x10, 0x14]) :
    ∃ why, selectRegister offset width = .error why := by
  cases width with
  | byte => exact ⟨_, rfl⟩
  | half => exact ⟨_, rfl⟩
  | word =>
    have hnone := registerAt_eq_none (h.resolve_left (fun hne => hne rfl))
    unfold selectRegister
    by_cases ha : offset % 4 ≠ 0
    · exact ⟨_, if_pos ha⟩
    · exact ⟨_, by rw [if_neg ha, hnone]⟩

/-- A full-width access at an offset of the map names its register. -/
theorem selectRegister_word {offset : Nat} (h : offset ∈ [0x00, 0x04, 0x08, 0x0C, 0x10, 0x14]) :
    ∃ r, selectRegister offset .word = .ok r := by
  simp only [List.mem_cons, List.not_mem_nil, or_false] at h
  rcases h with rfl | rfl | rfl | rfl | rfl | rfl <;> exact ⟨_, rfl⟩

/-- A full-width write at an offset of the map goes on. -/
theorem step_write_next {s : State} {offset : Nat} {v : Word} {rest : List Action}
    (ho : offset ∈ [0x00, 0x04, 0x08, 0x0C, 0x10, 0x14]) (h : s.host = .write offset .word v :: rest) :
    ∃ t, step s = .next t := by
  by_cases hcmd : offset ∈ [0x00, 0x04, 0x08, 0x0C]
  · exact ⟨_, step_cmdWrite ⟨offset, hcmd, v, rfl⟩ h⟩
  · by_cases hgo : offset = 0x10
    · subst hgo
      cases hd : decode s.cmd with
      | command i =>
        obtain ⟨t, ht, -⟩ := exec_keeps_cmd i (s.setHost rest)
        exact ⟨t, (step_go_command h hd).trans ht⟩
      | illegal e => exact ⟨_, step_go_illegal h hd⟩
    · have hstatus : offset = 0x14 := by simp at ho hcmd; omega
      subst hstatus
      exact ⟨_, step_write_status h⟩

/-- The legal values of `STATUS` (R13, spec/60_exceptions.md R83): 0, or one of the four codes with `FAULT`. -/
theorem statusLegal_cases {v : Word} (h : statusLegal v = true) :
    v = 0 ∨ v = 0x3 ∨ v = 0x5 ∨ v = 0x7 ∨ v = 0x9 := by
  have hreserved : statusReserved v = 0 := by
    simp only [statusLegal, Bool.and_eq_true, decide_eq_true_eq] at h
    exact h.1
  have hlt : v.toNat < 16 := by
    have := congrArg BitVec.toNat hreserved
    rw [statusReserved, BitVec.extractLsb'_toNat, Nat.shiftRight_eq_div_pow] at this
    have hv := v.isLt
    simp at this
    omega
  have small : ∀ n < 16, statusLegal (BitVec.ofNat 32 n) = true → BitVec.ofNat 32 n = 0#32 ∨
      BitVec.ofNat 32 n = 0x3#32 ∨ BitVec.ofNat 32 n = 0x5#32 ∨ BitVec.ofNat 32 n = 0x7#32 ∨
      BitVec.ofNat 32 n = 0x9#32 := by decide
  have := small v.toNat hlt
  rw [BitVec.ofNat_toNat, BitVec.setWidth_eq] at this
  exact this h

end Sys2Proof.Machine
end

section
/-! Obligations of the command port (spec/10_state.md, spec/70_reset_and_hazards.md). -/

namespace Sys2Proof.Machine

/-- Settles O6: each `CMD` write and read is one step of the port, and no command touches `CMD0..CMD3`. -/
theorem cmdRegistersReadBackAndSurviveCommands : Obligations.CmdRegistersReadBackAndSurviveCommands := by
  unfold Obligations.CmdRegistersReadBackAndSurviveCommands
  refine ⟨fun s v rest => ?_, fun s rest => ?_, rfl, exec_keeps_cmd⟩
  · have write {offset : Nat} (ho : offset ∈ [0x00, 0x04, 0x08, 0x0C]) (hh : s.host = .write offset .word v :: rest) :=
      step_cmdWrite ⟨offset, ho, v, rfl⟩ hh
    exact ⟨write (by decide), write (by decide), write (by decide), write (by decide)⟩
  · exact ⟨step_read (r := .cmd0) rfl, step_read (r := .cmd1) rfl, step_read (r := .cmd2) rfl,
      step_read (r := .cmd3) rfl⟩

/-- Settles O7: the `GO` write runs what the registers decode to, or latches. -/
theorem goWriteRunsTheDecodedCommand : Obligations.GoWriteRunsTheDecodedCommand := by
  unfold Obligations.GoWriteRunsTheDecodedCommand
  exact fun s rest => ⟨fun v i => step_go_command, fun v e => step_go_illegal, step_read (r := .go) rfl⟩

/-- Settles O9: the six offsets of the map, at full width, are the accesses that name a register. -/
theorem accessesOutsideTheRegisterMapAreRefused : Obligations.AccessesOutsideTheRegisterMapAreRefused := by
  unfold Obligations.AccessesOutsideTheRegisterMapAreRefused
  intro s offset width v rest
  constructor
  · intro hout
    obtain ⟨why, hwhy⟩ := selectRegister_error hout
    exact ⟨fun hh => ⟨why, step_write_refused hwhy hh⟩, fun hh => ⟨why, step_read_refused hwhy hh⟩⟩
  · rintro rfl ho
    obtain ⟨r, hr⟩ := selectRegister_word ho
    exact ⟨step_write_next ho, fun hh => ⟨_, step_read hr hh⟩⟩

/-- Settles O10: the port ignores the write and answers the latch, and a legal latch is 0 or one of the four codes. -/
theorem statusReadsTheLatchAndIgnoresWrites : Obligations.StatusReadsTheLatchAndIgnoresWrites := by
  unfold Obligations.StatusReadsTheLatchAndIgnoresWrites
  intro s v rest hs
  refine ⟨step_write_status, step_read (r := .status) rfl, ?_⟩
  rcases statusLegal_cases hs.status_legal with h | h | h | h | h <;> rw [h] <;> decide

/-- Settles O11: the response of a flush is the list of the framebuffer's bytes. -/
theorem flushReturnsACopyAndChangesNothing : Obligations.FlushReturnsACopyAndChangesNothing := by
  unfold Obligations.FlushReturnsACopyAndChangesNothing
  intro s rest hh
  exact ⟨_, step_flush hh, Memory.length_bytes _ _, fun j hj => Memory.getElem_bytes _ _ j hj⟩

/-- Settles O12: a reset empties the framebuffer, and an empty memory reads 0 everywhere. -/
theorem resetClearsTheBlockAndKeepsAssets : Obligations.ResetClearsTheBlockAndKeepsAssets := by
  unfold Obligations.ResetClearsTheBlockAndKeepsAssets
  exact ⟨fun s rest hh => ⟨[], step_reset hh, Memory.read_nil⟩, Memory.read_nil, rfl, rfl⟩

/-- Settles O13: one store in a canonical memory, or the fault where no byte exists. -/
theorem platformStoreChangesOneAssetByte : Obligations.PlatformStoreChangesOneAssetByte := by
  unfold Obligations.PlatformStoreChangesOneAssetByte
  intro s a v rest hs hh
  obtain ⟨-, -, -, hassets, -, -⟩ := hs
  rw [step_storeAsset hh]
  constructor
  · intro hlt
    refine ⟨s.assets.write a v, if_pos hlt, ?_, fun j hj => ?_⟩
    · rw [Memory.read_write hassets, if_pos rfl]
    · rw [Memory.read_write hassets, if_neg hj]
  · exact fun hge => if_neg (Nat.not_lt.mpr hge)

/-- Settles O15: the reset state is a literal, and its invariant is computed. -/
theorem resetIsALegalState : Obligations.ResetIsALegalState := by
  unfold Obligations.ResetIsALegalState
  decide

end Sys2Proof.Machine
end

section
/-! SUPPORT. What a command and a step leave unchanged, and what a draw depends on: its header, its processed cells, and
of the framebuffer the pixel it merges (spec/20_memory.md R20, R30; spec/40_common_pipeline.md R48, R67). -/

namespace Sys2Proof.Machine

/-- No command writes the parameters or asset memory. -/
theorem exec_keeps_inputs {i : Instr} {s t : State} (h : exec i s = .next t) :
    t.params = s.params ∧ t.assets = s.assets := by
  rcases exec_cases i s with ⟨-, hx⟩ | ⟨code, -, hx⟩ | ⟨pl, -, hx⟩ <;> cases h.symm.trans hx <;> exact ⟨rfl, rfl⟩

/-- A command that changes `STATUS` is a faulting one: `FAULT` is 1 after it, and the framebuffer is as before. -/
theorem exec_of_status_ne {i : Instr} {s t : State} (h : exec i s = .next t) (hne : t.status ≠ s.status) :
    t.fb = s.fb ∧ statusFault t.status = true := by
  rcases exec_cases i s with ⟨-, hx⟩ | ⟨code, -, hx⟩ | ⟨pl, -, hx⟩
  · cases h.symm.trans hx
    exact absurd rfl hne
  · cases h.symm.trans hx
    exact ⟨rfl, statusFault_latch _ _⟩
  · cases h.symm.trans hx
    exact absurd rfl hne

/-- The plan of a drawn command is that of its request, for some header. -/
theorem plan_of_verdictOf_draw {i : Instr} {s : State} {pl : Plan} (h : verdictOf i s = .draw pl) :
    ∃ hd, pl = planOf s.params (requestOf i) hd := by
  obtain ⟨hd, -, -, -, -, hpl⟩ := verdict_draw h
  exact ⟨hd, hpl⟩

/-- The traversal merges each pixel with the old value of that pixel alone (R67). -/
theorem pixel_compose_congr {p : Params} {assets : Memory} {r : Request} {hd : Header} {fb fb₂ : Memory}
    (hfb : fb.wf = true) (hfb₂ : fb₂.wf = true) {X Y : Nat} (hX : X < p.width) (hY : Y < 8 * p.npages)
    (hpix : pixel p fb X Y = pixel p fb₂ X Y) :
    pixel p (compose p assets (planOf p r hd) fb) X Y = pixel p (compose p assets (planOf p r hd) fb₂) X Y := by
  rw [(compose_drawn hfb).1 X Y hX hY, (compose_drawn hfb₂).1 X Y hX hY, hpix]

/-- The two bytes of a cell come from the addresses it reads. -/
theorem cellBytes_congr {pl : Plan} {cell : Nat × Nat} {assets assets₂ : Memory}
    (h : ∀ a, cellReads pl cell a → assets₂.read a = assets.read a) :
    imageByte pl assets₂ cell.1 cell.2 = imageByte pl assets cell.1 cell.2 ∧
      maskByte pl assets₂ cell.1 cell.2 = maskByte pl assets cell.1 cell.2 := by
  refine ⟨h _ (.inl rfl), ?_⟩
  cases hm : pl.mode with
  | unmasked | selfMasked | erase => simp only [maskByte, hm]
  | externalMask => simpa only [maskByte, hm] using h _ (.inr (.inl ⟨hm, rfl⟩))
  | combinedMask => simpa only [maskByte, hm, combinedMaskSlot] using h _ (.inr (.inr ⟨hm, rfl⟩))

/-- Two asset memories that agree on what the cells read give the same traversal. -/
theorem compose_congr_assets {p : Params} {pl : Plan} {assets assets₂ : Memory}
    (h : ∀ cell ∈ cells pl.clip, ∀ a, cellReads pl cell a → assets₂.read a = assets.read a) (fb : Memory) :
    compose p assets₂ pl fb = compose p assets pl fb := by
  refine compose_congr rfl (fun cell hc fb => ?_) fb
  obtain ⟨himage, hmask⟩ := cellBytes_congr (h cell hc)
  exact drawCell_congr rfl rfl (fun _ => by rw [himage, hmask]) (fun _ => by rw [himage, hmask]) fb

/-- A drawn command is drawn with the same plan in every asset memory with the same two header bytes. -/
theorem verdict_draw_congr_assets {p : Params} {assets assets₂ : Memory} {r : Request} {pl : Plan}
    (hv : verdict p assets r = .draw pl) (hw : assets₂.read r.bptr = assets.read r.bptr)
    (hh : assets₂.read (r.bptr + 1) = assets.read (r.bptr + 1)) : verdict p assets₂ r = .draw pl := by
  obtain ⟨hd, hheader, -⟩ := verdict_draw hv
  have hheader₂ : HeaderAt p assets₂ r.bptr hd.w hd.h := by
    unfold HeaderAt at hheader ⊢
    rwa [hw, hh]
  rw [verdict_of_header hheader] at hv
  rw [verdict_of_header hheader₂, hv]

end Sys2Proof.Machine
end

section
/-! Obligations on what commands and steps write, and on what they depend on. -/

namespace Sys2Proof.Machine

/-- Settles O16: the three ends of a command. -/
theorem everyCommandEndsAndChangesFramebufferOrStatus : Obligations.EveryCommandEndsAndChangesFramebufferOrStatus := by
  unfold Obligations.EveryCommandEndsAndChangesFramebufferOrStatus
  intro i s
  rcases exec_cases i s with ⟨-, hx⟩ | ⟨code, -, hx⟩ | ⟨pl, -, hx⟩
  · exact ⟨s.fb, s.status, hx, .inl rfl⟩
  · exact ⟨s.fb, _, hx, .inl rfl⟩
  · exact ⟨_, s.status, hx, .inr rfl⟩

/-- Settles O17: only the cells of a drawn command store, and they land on the framebuffer. -/
theorem commandsStoreOnlyToTheirCells : Obligations.CommandsStoreOnlyToTheirCells := by
  unfold Obligations.CommandsStoreOnlyToTheirCells
  intro i s hs
  rcases exec_cases i s with ⟨hv, hx⟩ | ⟨code, hv, hx⟩ | ⟨pl, hv, hx⟩
  · exact ⟨_, hx, fun j => ⟨fun _ => rfl, fun hj => by simp [storesTo, hv] at hj⟩⟩
  · exact ⟨_, hx, fun j => ⟨fun _ => rfl, fun hj => by simp [storesTo, hv] at hj⟩⟩
  · obtain ⟨hd, rfl⟩ := plan_of_verdictOf_draw hv
    refine ⟨_, hx, fun j => ?_⟩
    rw [storesTo, hv]
    constructor
    · exact fun hnone => read_foldl_of_not_stored _ (fun cell hc hstore => hnone ⟨cell, hc, hstore⟩) hs.fb_wf
    · rintro ⟨cell, hc, hstore⟩
      exact cellStoresTo_lt (planOf_lands hc) hstore

/-- Settles O18: of the ways a step can go on, each memory is written by the one that names it. -/
theorem onlyDrawsAndResetWriteTheFramebuffer : Obligations.OnlyDrawsAndResetWriteTheFramebuffer := by
  unfold Obligations.OnlyDrawsAndResetWriteTheFramebuffer
  intro s t hstep
  rcases step_next_cases hstep with ⟨-, rfl⟩ | ⟨a, rest, hh, hcase⟩
  · exact ⟨absurd rfl, absurd rfl, rfl⟩
  · have hhead : s.host.head? = some a := congrArg List.head? hh
    rcases hcase with rfl | ⟨d, rfl⟩ | ⟨v, rfl⟩ | ⟨address, v, rfl, -, rfl⟩ | ⟨rfl, rfl⟩ | ⟨v, i, rfl, -, hx⟩ |
      ⟨v, e, -, -, rfl⟩
    · exact ⟨absurd rfl, absurd rfl, rfl⟩
    · exact ⟨absurd rfl, absurd rfl, rfl⟩
    · exact ⟨absurd rfl, absurd rfl, rfl⟩
    · exact ⟨absurd rfl, fun _ => ⟨address, v, hhead⟩, rfl⟩
    · exact ⟨fun _ => .inl hhead, absurd rfl, rfl⟩
    · obtain ⟨hparams, hassets⟩ := exec_keeps_inputs hx
      exact ⟨fun _ => .inr ⟨v, hhead⟩, absurd hassets, hparams⟩
    · exact ⟨absurd rfl, absurd rfl, rfl⟩

/-- Settles O19: the stages do not read the framebuffer, and the traversal merges each pixel with itself. -/
theorem eachPixelDependsOnNoOtherPixel : Obligations.EachPixelDependsOnNoOtherPixel := by
  unfold Obligations.EachPixelDependsOnNoOtherPixel
  intro i s fb₂ X Y hfb hfb₂ hX hY hpix
  have hv₂ : verdictOf i (s.setFb fb₂) = verdictOf i s := verdictOf_setFb i s fb₂
  rcases exec_cases i s with ⟨hv, hx⟩ | ⟨code, hv, hx⟩ | ⟨pl, hv, hx⟩ <;> rw [hv] at hv₂
  · exact ⟨_, _, hx, exec_of_skipped hv₂, rfl, hpix⟩
  · exact ⟨_, _, hx, exec_of_fault hv₂, rfl, hpix⟩
  · refine ⟨_, _, hx, exec_of_draw hv₂, rfl, ?_⟩
    obtain ⟨hd, rfl⟩ := plan_of_verdictOf_draw hv
    exact pixel_compose_congr hfb hfb₂ hX hY hpix

/-- Settles O20: the header fixes the plan, and the cells of the plan read all the rest. -/
theorem drawReadsOnlyItsHeaderAndProcessedCells : Obligations.DrawReadsOnlyItsHeaderAndProcessedCells := by
  unfold Obligations.DrawReadsOnlyItsHeaderAndProcessedCells
  intro i s pl assets₂ hv hw hh hcells
  have hv₂ : verdictOf i (s.setAssets assets₂) = .draw pl := verdict_draw_congr_assets hv hw hh
  refine ⟨_, exec_of_draw hv, (exec_of_draw hv₂).trans ?_⟩
  exact congrArg (fun fb => Host.Outcome.next ((s.setAssets assets₂).setFb fb)) (compose_congr_assets hcells s.fb)

/-- Settles O28: a step that is no reset changes `STATUS` by a fault alone. -/
theorem statusChangesOnlyByAFaultOrReset : Obligations.StatusChangesOnlyByAFaultOrReset := by
  unfold Obligations.StatusChangesOnlyByAFaultOrReset
  intro s t hstep hne
  rcases step_next_cases hstep with ⟨-, rfl⟩ | ⟨a, rest, hh, hcase⟩
  · exact absurd rfl hne
  · have hhead : s.host.head? = some a := congrArg List.head? hh
    rcases hcase with rfl | ⟨d, rfl⟩ | ⟨v, rfl⟩ | ⟨address, v, -, -, rfl⟩ | ⟨rfl, -⟩ | ⟨v, i, rfl, -, hx⟩ |
      ⟨v, e, rfl, -, rfl⟩
    · exact absurd rfl hne
    · exact absurd rfl hne
    · exact absurd rfl hne
    · exact absurd rfl hne
    · exact .inl hhead
    · exact .inr ⟨⟨v, hhead⟩, exec_of_status_ne (s := s.setHost rest) hx hne⟩
    · exact .inr ⟨⟨v, hhead⟩, rfl, statusFault_latch _ _⟩

/-- Settles O29: no stage reads `STATUS`, so both commands end in the same way. -/
theorem recordedFaultDoesNotAlterLaterCommands : Obligations.RecordedFaultDoesNotAlterLaterCommands := by
  unfold Obligations.RecordedFaultDoesNotAlterLaterCommands
  intro i s v
  have hv₂ : verdictOf i (s.setStatus v) = verdictOf i s := verdictOf_setStatus i s v
  rcases exec_cases i s with ⟨hv, hx⟩ | ⟨code, hv, hx⟩ | ⟨pl, hv, hx⟩ <;> rw [hv] at hv₂
  · exact ⟨_, v, hx, exec_of_skipped hv₂⟩
  · exact ⟨_, latch code v, hx, exec_of_fault hv₂⟩
  · exact ⟨_, v, hx, exec_of_draw hv₂⟩

end Sys2Proof.Machine
end

section
/-! SUPPORT. The faults of the header, of the null mask and of the range check (spec/60_exceptions.md R82, R85). -/

namespace Sys2Proof.Machine

/-- A fault in a legal state, with the value that `STATUS` takes (R84). -/
theorem raiseFault_of_legal {s : State} (hs : s.Inv) (code : FaultCode) :
    raiseFault code s = s.setStatus (if s.status &&& 1 = 1 then s.status else latch code 0) := by
  rw [raiseFault, latch_of_legal hs.status_legal]

/-- A draw whose header is readable and whose sprite is on the screen: the mask check, then the range check (R85). -/
theorem draw_of_onScreen {r : Request} {s : State} {w h : Nat} (hh : HeaderAt s.params s.assets r.bptr w h)
    (hon : ¬ OffScreen s.params r.x r.y w h) :
    draw r s =
      if maskMissing (resolveMode r.mode r.mptr) r.mptr then .next (raiseFault .nullMask s)
      else if outOfRange s.params (planOf s.params r ⟨w, h⟩) then .next (raiseFault .assetRange s)
      else .next (s.setFb (compose s.params s.assets (planOf s.params r ⟨w, h⟩) s.fb)) := by
  rw [draw_of_header hh, if_neg (mt offScreen_iff.mp hon)]

/-- The mask check fails before the range check (R74, R85). -/
theorem draw_of_missing_mask {r : Request} {s : State} {w h : Nat} (hh : HeaderAt s.params s.assets r.bptr w h)
    (hon : ¬ OffScreen s.params r.x r.y w h) (hnull : resolveMode r.mode r.mptr = .externalMask ∧ r.mptr = 0) :
    draw r s = .next (raiseFault .nullMask s) := by
  rw [draw_of_onScreen hh hon, if_pos (maskMissing_iff.mpr hnull)]

/-- Only an `ExternalMask` without a mask ends in `NULL_MASK` (R74). -/
theorem maskMissing_of_verdict {p : Params} {assets : Memory} {r : Request}
    (hv : verdict p assets r = .fault .nullMask) : resolveMode r.mode r.mptr = .externalMask ∧ r.mptr = 0 := by
  by_cases hh : ∃ w h, HeaderAt p assets r.bptr w h
  · obtain ⟨w, h, hh⟩ := hh
    rw [verdict_of_header hh] at hv
    split_ifs at hv with _ hmissing
    · exact maskMissing_iff.mp hmissing
    all_goals simp at hv
  · rw [verdict_of_no_header fun w h hw => hh ⟨w, h, hw⟩] at hv
    split_ifs at hv <;> simp at hv

/-- The last cell reads the largest image address. -/
theorem cellReads_imgMax (pl : Plan) : cellReads pl (pl.clip.lastRow, pl.clip.lastColumn) (imgMax pl) := by
  cases hm : pl.mode with
  | combinedMask => exact .inr (.inr ⟨hm, by simp only [imgMax, hm]⟩)
  | unmasked | selfMasked | erase | externalMask => exact .inl (by simp only [imgMax, imageAddress, hm])

/-- No cell reads beyond the two largest addresses (R82). -/
theorem cellReads_le {pl : Plan} {cell : Nat × Nat} (hc : cell ∈ cells pl.clip) {a : Nat} (ha : cellReads pl cell a) :
    a ≤ imgMax pl ∨ (pl.mode = .externalMask ∧ a ≤ maskMax pl) := by
  have hle := cell_le_last (w := pl.w) hc
  rcases ha with rfl | ⟨hm, rfl⟩ | ⟨hm, rfl⟩
  · left
    cases hm : pl.mode <;> simp only [imgMax, imageAddress, hm, combinedImageSlot] <;> omega
  · exact .inr ⟨hm, Nat.add_le_add_left hle _⟩
  · left
    simp only [imgMax, hm]
    omega

/-- The range check fails exactly when some processed cell reads at or beyond `ASSET_SIZE` (R82). -/
theorem outOfRange_iff_cellReads {p : Params} {r : Request} {w h : Nat} (hp : p.wf = true) (hw : w ≠ 0) (hh : h ≠ 0)
    (hon : ¬ OffScreen p r.x r.y w h) :
    outOfRange p (planOf p r ⟨w, h⟩) = true ↔
      ∃ cell ∈ cells (clip p r.x r.y w h), ∃ a, cellReads (planOf p r ⟨w, h⟩) cell a ∧ p.assetSize ≤ a := by
  have hlast := lastCell_mem hp hw hh hon
  rw [outOfRange_iff]
  constructor
  · rintro (himg | ⟨hm, hmask⟩)
    · exact ⟨_, hlast, _, cellReads_imgMax _, himg⟩
    · exact ⟨_, hlast, _, .inr (.inl ⟨hm, rfl⟩), hmask⟩
  · rintro ⟨cell, hc, a, ha, hsize⟩
    rcases cellReads_le (pl := planOf p r ⟨w, h⟩) hc ha with hle | ⟨hm, hle⟩
    · exact .inl (hsize.trans hle)
    · exact .inr ⟨hm, hsize.trans hle⟩

end Sys2Proof.Machine
end

section
/-! Obligations on the faults of a command (spec/60_exceptions.md). -/

namespace Sys2Proof.Machine

/-- Settles O24: without a readable header the bitmap reference alone decides the fault. -/
theorem unreadableAndZeroHeadersFault : Obligations.UnreadableAndZeroHeadersFault := by
  unfold Obligations.UnreadableAndZeroHeadersFault
  intro i s hs hb
  rw [exec_eq_draw]
  constructor
  · intro hbeyond
    have hno : ∀ w h, ¬ HeaderAt s.params s.assets (requestOf i).bptr w h :=
      fun w h ⟨_, hin, _⟩ => absurd hin (Nat.not_lt.mpr hbeyond)
    rw [draw_of_no_header hno, if_neg hb, if_pos hbeyond, raiseFault_of_legal hs, latch_zero]
    rfl
  · intro hin hzero
    have hno : ∀ w h, ¬ HeaderAt s.params s.assets (requestOf i).bptr w h := by
      rintro w h ⟨-, -, rfl, rfl, hw, hh⟩
      rcases hzero with h0 | h0
      · exact hw (by rw [h0]; rfl)
      · exact hh (by rw [h0]; rfl)
    rw [draw_of_no_header hno, if_neg hb, if_neg (Nat.not_le.mpr hin), raiseFault_of_legal hs, latch_zero]
    rfl

/-- Settles O25: the mask check comes after the early exit, and only `ExternalMask` can fail it. -/
theorem nullMaskFaultsInDrawExternalMaskOnly : Obligations.NullMaskFaultsInDrawExternalMaskOnly := by
  unfold Obligations.NullMaskFaultsInDrawExternalMaskOnly
  constructor
  · intro s x y bitmap frame maskFrame w h hs hh hon
    have hdraw := draw_of_missing_mask (r := requestOf (.drawExternalMask x y bitmap 0 frame maskFrame)) hh hon
      ⟨rfl, rfl⟩
    rw [exec_eq_draw, hdraw, raiseFault_of_legal hs, latch_zero]
    rfl
  · intro i s hv
    obtain ⟨hmode, hnull⟩ := maskMissing_of_verdict hv
    cases i with
    | drawExternalMask x y bitmap mask frame maskFrame =>
      obtain rfl : mask = 0 := hnull
      exact ⟨x, y, bitmap, frame, maskFrame, rfl⟩
    | drawAuto x y bitmap mask frame maskFrame =>
      obtain rfl : mask = 0 := hnull
      exact absurd hmode (by simp [requestOf, resolveMode])
    | drawOverwrite | drawSelfMasked | drawErase | drawPlusMask => exact absurd hmode (by simp [requestOf, resolveMode])

/-- Settles O26: the range check looks at the last cell, which reads the largest addresses. -/
theorem rangeFaultExactlyWhenAProcessedCellIsOutside : Obligations.RangeFaultExactlyWhenAProcessedCellIsOutside := by
  unfold Obligations.RangeFaultExactlyWhenAProcessedCellIsOutside
  intro i s w h hs hheader hon hnull
  have ⟨_, _, _, _, hw, hh⟩ := hheader
  have hrange := outOfRange_iff_cellReads hs.params_wf hw hh hon
  rw [exec_eq_draw, draw_of_onScreen hheader hon, if_neg (mt maskMissing_iff.mp hnull)]
  constructor
  · intro houtside
    rw [if_pos (hrange.mpr houtside), raiseFault_of_legal hs, latch_zero]
    rfl
  · intro hinside
    rw [if_neg]
    · exact ⟨_, rfl⟩
    · rw [hrange]
      rintro ⟨cell, hc, a, ha, hsize⟩
      exact absurd (hinside cell hc a ha) (Nat.not_lt.mpr hsize)

end Sys2Proof.Machine
end

section
/-! SUPPORT. The size and the order of the traversal, and why its order does not matter (spec/40_common_pipeline.md R57
to R65). -/

namespace Sys2Proof.Machine

/-! ### Size and order of the list of cells -/

theorem renderedWidth_le (p : Params) (x : Int) (w : Nat) : renderedWidth p x w ≤ w := by
  unfold renderedWidth xOffset
  split <;> split <;> omega

theorem renderedWidth_le_width {p : Params} {x : Int} {w : Nat} (hx : x < p.width) :
    renderedWidth p x w ≤ p.width := by
  unfold renderedWidth xOffset
  split <;> split <;> omega

theorem endRows_le (p : Params) (y : Int) (h : Nat) : endRows p y h ≤ pageRows h := by
  unfold endRows
  omega

/-- At most the sprite's page-rows, each with the rendered columns (R60). -/
theorem length_cells_clip_le (p : Params) (x y : Int) (w h : Nat) :
    (cells (clip p x y w h)).length ≤ pageRows h * renderedWidth p x w := by
  rw [length_cells, clip_endRows, clip_startSkipRows, clip_renderedWidth]
  exact Nat.mul_le_mul_right _ ((Nat.sub_le _ _).trans (endRows_le p y h))

/-- The order of the traversal: page-row first, column fastest. -/
def CellBefore (a b : Nat × Nat) : Prop := a.1 < b.1 ∨ (a.1 = b.1 ∧ a.2 < b.2)

theorem cells_pairwise (g : Clip) : (cells g).Pairwise CellBefore := by
  unfold cells
  rw [List.pairwise_flatMap]
  constructor
  · intro pr _
    exact List.Pairwise.map _ (fun _ _ hlt => .inr ⟨rfl, hlt⟩) List.pairwise_lt_range'
  · refine (List.pairwise_lt_range' (step := 1)).imp fun hlt a ha b hb => ?_
    obtain ⟨_, _, rfl⟩ := List.mem_map.mp ha
    obtain ⟨_, _, rfl⟩ := List.mem_map.mp hb
    exact .inl hlt

/-! ### The cells in another order (R65) -/

/-- A permutation of the cells of a plan leaves the memory that the traversal leaves: each pixel is merged by the one
cell that covers it, wherever that cell stands. -/
theorem foldl_drawCell_of_perm {p : Params} {assets : Memory} {r : Request} {hd : Header} {order : List (Nat × Nat)}
    (hp : order.Perm (cells (planOf p r hd).clip)) {fb : Memory} (hfb : fb.wf = true) :
    order.foldl (drawCell p assets (planOf p r hd)) fb = compose p assets (planOf p r hd) fb := by
  have hn : (planOf p r hd).clip.yOffset < 8 := yOffset_lt r.y
  have hlands : ∀ cell ∈ order, (planOf p r hd).Lands p cell := fun cell hc => planOf_lands (hp.mem_iff.mp hc)
  refine memory_ext_pixel (p := p) (wf_foldl_drawCell _ hfb) (wf_compose hfb) (fun X Y hX hY => ?_) fun j hj => ?_
  · by_cases hhit : ∃ cell ∈ order, (planOf p r hd).Hits cell X Y
    · obtain ⟨cell, hc, hhit⟩ := hhit
      rw [pixel_foldl_hit hn hX hY order hlands (hp.nodup_iff.mpr (cells_nodup _)) hc hhit hfb, compose,
        pixel_foldl_hit hn hX hY _ (fun _ => planOf_lands) (cells_nodup _) (hp.mem_iff.mp hc) hhit hfb]
    · have hmiss : ∀ cell ∈ order, ¬ (planOf p r hd).Hits cell X Y := fun cell hc hh => hhit ⟨cell, hc, hh⟩
      rw [pixel_foldl_miss hn hX hY order hlands hmiss hfb, compose,
        pixel_foldl_miss hn hX hY _ (fun _ => planOf_lands) (fun cell hc => hmiss cell (hp.mem_iff.mpr hc)) hfb]
  · have hnone : ∀ cell ∈ order, ¬ cellStoresTo p (planOf p r hd) cell j :=
      fun cell hc hs => absurd (cellStoresTo_lt (hlands cell hc) hs) (Nat.not_lt.mpr hj)
    rw [read_foldl_of_not_stored order hnone hfb, compose,
      read_foldl_of_not_stored _ (fun cell hc => hnone cell (hp.mem_iff.mpr hc)) hfb]

/-! ### The halves of a cell in the other order (R65) -/

/-- Merges of two different bytes commute. -/
theorem Memory.update_comm {m : Memory} (h : m.wf = true) {i j : Nat} (hij : i ≠ j) (f g : Byte → Byte) :
    (m.update i f).update j g = (m.update j g).update i f := by
  refine Memory.ext_read (Memory.wf_update (Memory.wf_update h _ _) _ _)
    (Memory.wf_update (Memory.wf_update h _ _) _ _) fun a => ?_
  rw [Memory.read_update (Memory.wf_update h _ _), Memory.read_update h, Memory.read_update (Memory.wf_update h _ _),
    Memory.read_update h]
  by_cases hi : a = i
  · subst hi
    simp [hij]
  · simp [hi]

/-- One page-row below is another byte of the framebuffer. -/
theorem fbIndex_ne_below {p : Params} {page col : Int} (h : 0 ≤ page) (hc : 0 ≤ col) (hw : col < p.width) :
    fbIndex p page col ≠ fbIndex p (page + 1) col := by
  rw [fbIndex_eq h hc, fbIndex_eq (by omega) hc, Ne, index_inj (by omega) (by omega)]
  omega

/-- The two halves of a cell go to different bytes, so their order is free. -/
theorem mergeLow_mergeHigh {p : Params} {assets : Memory} {pl : Plan} {fb : Memory} (hfb : fb.wf = true)
    {cell : Nat × Nat} (hl : pl.Lands p cell) :
    mergeLow p assets pl cell.1 cell.2 (mergeHigh p assets pl cell.1 cell.2 fb) = drawCell p assets pl fb cell := by
  unfold drawCell mergeLow mergeHigh
  by_cases hlow : 0 ≤ pl.clip.startPage + cell.1
  · simp only [hlow, if_true]
    split
    · exact Memory.update_comm hfb (fbIndex_ne_below hlow hl.2.1 hl.2.2).symm _ _
    · rfl
  · simp only [hlow, if_false]

/-- A list of cells drawn high half first leaves what it leaves low half first. -/
theorem foldl_mergeLow_mergeHigh {p : Params} {assets : Memory} {pl : Plan} {L : List (Nat × Nat)}
    (hL : ∀ cell ∈ L, pl.Lands p cell) {fb : Memory} (hfb : fb.wf = true) :
    L.foldl (fun m cell => mergeLow p assets pl cell.1 cell.2 (mergeHigh p assets pl cell.1 cell.2 m)) fb =
      L.foldl (drawCell p assets pl) fb := by
  induction L generalizing fb with
  | nil => rfl
  | cons cell L ih =>
    rw [List.foldl_cons, List.foldl_cons, mergeLow_mergeHigh hfb (hL cell (by simp)),
      ih (fun d hd => hL d (by simp [hd])) (wf_drawCell hfb cell)]

end Sys2Proof.Machine
end

section
/-! Obligations on clipping and traversal (spec/40_common_pipeline.md R57 to R65). -/

namespace Sys2Proof.Machine

/-- Settles O31: the bounds of the clip, and where its cells land. -/
theorem clippedCellsLandOnTheFramebuffer : Obligations.ClippedCellsLandOnTheFramebuffer := by
  unfold Obligations.ClippedCellsLandOnTheFramebuffer
  intro p x y w h hp hw hh hon
  have hx : x < p.width := by omega
  refine ⟨renderedWidth_pos hp hw hon, le_min (renderedWidth_le p x w) (renderedWidth_le_width hx),
    startSkipRows_lt_endRows hp hh hon, endRows_le p y h, fun cell hc => ?_⟩
  obtain ⟨⟨-, hbelow, habove⟩, -, hleft, hright⟩ := mem_cells_clip.mp hc
  exact ⟨hbelow, habove, hleft, hright⟩

/-- Settles O33: page-rows times rendered columns, in the order of two nested ranges. -/
theorem traversalIsBoundedAndColumnFastest : Obligations.TraversalIsBoundedAndColumnFastest := by
  unfold Obligations.TraversalIsBoundedAndColumnFastest
  intro p x y w h hw hh
  have hlength := length_cells_clip_le p x y w h
  have hrows : pageRows h ≤ 32 := by unfold pageRows; omega
  exact ⟨hlength, hlength.trans (Nat.mul_le_mul hrows ((renderedWidth_le p x w).trans hw)), cells_pairwise _⟩

/-- Settles O34: every order of the cells merges each pixel once, and the halves of a cell commute. -/
theorem framebufferDoesNotDependOnTraversalOrder : Obligations.FramebufferDoesNotDependOnTraversalOrder := by
  unfold Obligations.FramebufferDoesNotDependOnTraversalOrder
  intro p assets fb r hd order hfb hp
  have horder := foldl_drawCell_of_perm (assets := assets) hp hfb
  exact ⟨horder, (foldl_mergeLow_mergeHigh (fun _ hc => planOf_lands (hp.mem_iff.mp hc)) hfb).trans horder⟩

end Sys2Proof.Machine
end

section
/-! SUPPORT. A draw that completes, as the picture it leaves, and the picture read byte by byte (spec/20_memory.md R21;
spec/40_common_pipeline.md R67). -/

namespace Sys2Proof.Machine

theorem getLsbD_ones {i : Nat} (hi : i < 8) : (0xFF : Byte).getLsbD i = true := by
  rw [show (0xFF : Byte) = BitVec.allOnes 8 from rfl, BitVec.getLsbD_allOnes, decide_eq_true hi]

/-- The pixel at a byte's column and page-row, bit by bit. -/
theorem pixel_page (p : Params) (fb : Memory) (X page : Nat) {i : Nat} (hi : i < 8) :
    pixel p fb X (8 * page + i) = (fb.read (page * p.width + X)).getLsbD i := by
  rw [pixel, show (8 * page + i) / 8 = page by omega, show (8 * page + i) % 8 = i by omega]

variable {p : Params} {before after : Memory} {x y : Int} {w h : Nat} {f g : Nat → Nat → Bool → Bool}

/-- The same picture under an operator that gives the same values. -/
theorem Drawn.congr_op (d : Drawn p before after x y w h f) (hfg : ∀ c row old, f c row old = g c row old) :
    Drawn p before after x y w h g := by
  obtain rfl : f = g := by
    funext c row old
    exact hfg c row old
  exact d

/-- A byte none of whose pixels is in the sprite is as before. -/
theorem Drawn.read_outside (d : Drawn p before after x y w h f) {j : Nat}
    (hout : ∀ i < 8, ¬ InSprite x y w h (j % p.width) (8 * (j / p.width) + i)) : after.read j = before.read j := by
  by_cases hj : p.fbSize ≤ j
  · exact d.2 j hj
  · refine BitVec.eq_of_getLsbD_eq fun i hi => ?_
    obtain ⟨hX, hY⟩ := column_row_lt (Nat.lt_of_not_le hj) hi
    rw [getLsbD_read_eq_pixel p after hi, getLsbD_read_eq_pixel p before hi, d.1 _ _ hX hY, if_neg (hout i hi)]

/-- A draw that passes every stage leaves the picture of its operator: the shared part of the six commands. -/
theorem draw_completes_drawn {r : Request} {s : State} (hfb : s.fb.wf = true)
    (hh : HeaderAt s.params s.assets r.bptr w h) (hon : ¬ OffScreen s.params r.x r.y w h)
    (hnull : ¬ (resolveMode r.mode r.mptr = .externalMask ∧ r.mptr = 0))
    (himg : imgMax (planOf s.params r ⟨w, h⟩) < s.params.assetSize)
    (hmask : resolveMode r.mode r.mptr = .externalMask → maskMax (planOf s.params r ⟨w, h⟩) < s.params.assetSize)
    (hop : ∀ c row old, mergeBit (resolveMode r.mode r.mptr) old
        ((imageByte (planOf s.params r ⟨w, h⟩) s.assets (row / 8) c).getLsbD (row % 8))
        ((maskByte (planOf s.params r ⟨w, h⟩) s.assets (row / 8) c).getLsbD (row % 8)) = f c row old) :
    ∃ fb' : Memory, draw r s = .next { s with fb := fb' } ∧ Drawn s.params s.fb fb' r.x r.y w h f :=
  ⟨_, draw_completes hh hon hnull himg hmask, (compose_drawn hfb).congr_op hop⟩

/-- The byte of a plain cell, bit by bit. -/
theorem getLsbD_plainCell (assets : Memory) (base w c row : Nat) :
    (assets.read (base + (c + row / 8 * w))).getLsbD (row % 8) = plainBit assets base w c row := by
  rw [plainBit, Nat.add_assoc]

end Sys2Proof.Machine
end

section
/-! Obligations on what each command completes with (spec/41_unmasked_family.md, spec/42_masked_family.md). -/

namespace Sys2Proof.Machine

/-- Settles O36: with the own-mask 0xFF the old pixel is lost. -/
theorem drawOverwriteCopiesEveryBitmapPixel : Obligations.DrawOverwriteCopiesEveryBitmapPixel := by
  unfold Obligations.DrawOverwriteCopiesEveryBitmapPixel
  intro s x y bitmap frame w h hs hh hon hrange
  rw [exec_eq_draw]
  refine draw_completes_drawn (r := requestOf (.drawOverwrite x y bitmap frame)) hs.fb_wf hh hon nofun hrange nofun
    fun c row old => ?_
  change ((old && !(0xFF : Byte).getLsbD (row % 8)) || (s.assets.read (_ + (c + row / 8 * w))).getLsbD (row % 8)) = _
  rw [getLsbD_ones (Nat.mod_lt _ (by decide)), getLsbD_plainCell, Bool.not_true, Bool.and_false, Bool.false_or]
  rfl

/-- Settles O37: the bitmap bit is ORed to the old pixel. -/
theorem drawSelfMaskedSetsTheBitmapPixels : Obligations.DrawSelfMaskedSetsTheBitmapPixels := by
  unfold Obligations.DrawSelfMaskedSetsTheBitmapPixels
  intro s x y bitmap frame w h hs hh hon hrange
  rw [exec_eq_draw]
  refine draw_completes_drawn (r := requestOf (.drawSelfMasked x y bitmap frame)) hs.fb_wf hh hon nofun hrange nofun
    fun c row old => ?_
  exact congrArg (old || ·) (getLsbD_plainCell ..)

/-- Settles O38: the bitmap bit clears the old pixel. -/
theorem drawEraseClearsTheBitmapPixels : Obligations.DrawEraseClearsTheBitmapPixels := by
  unfold Obligations.DrawEraseClearsTheBitmapPixels
  intro s x y bitmap frame w h hs hh hon hrange
  rw [exec_eq_draw]
  refine draw_completes_drawn (r := requestOf (.drawErase x y bitmap frame)) hs.fb_wf hh hon nofun hrange nofun
    fun c row old => ?_
  exact congrArg (old && !·) (getLsbD_plainCell ..)

/-- Settles O39: image and mask bytes stand at the same place in two plain frames. -/
theorem drawExternalMaskMergesImageUnderMask : Obligations.DrawExternalMaskMergesImageUnderMask := by
  unfold Obligations.DrawExternalMaskMergesImageUnderMask
  intro s x y bitmap mask frame maskFrame w h hs hh hmask hon hrange hmaskRange
  rw [exec_eq_draw]
  refine draw_completes_drawn (r := requestOf (.drawExternalMask x y bitmap mask frame maskFrame)) hs.fb_wf hh hon
    (fun hnull => hmask hnull.2) hrange (fun _ => hmaskRange) fun c row old => ?_
  exact congrArg₂ (fun image mask => (old && !mask) || image) (getLsbD_plainCell ..) (getLsbD_plainCell ..)

/-- Settles O40: image and mask bytes are the even and odd bytes of one frame. -/
theorem drawPlusMaskMergesInterleavedCells : Obligations.DrawPlusMaskMergesInterleavedCells := by
  unfold Obligations.DrawPlusMaskMergesInterleavedCells
  intro s x y bitmap frame w h hs hh hon hrange
  rw [exec_eq_draw]
  exact draw_completes_drawn (r := requestOf (.drawPlusMask x y bitmap frame)) hs.fb_wf hh hon nofun hrange nofun
    fun c row old => rfl

/-- Settles O41: `Auto` is the overwrite with a null mask and the external mask otherwise. -/
theorem drawAutoCopiesOrMergesByItsMask : Obligations.DrawAutoCopiesOrMergesByItsMask := by
  unfold Obligations.DrawAutoCopiesOrMergesByItsMask
  intro s x y bitmap mask frame maskFrame w h hs hh hon hrange hmaskRange
  by_cases hmask : mask = 0
  · subst hmask
    rw [exec_drawAuto_null]
    simpa only [if_true] using drawOverwriteCopiesEveryBitmapPixel s x y bitmap frame w h hs hh hon hrange
  · rw [exec_drawAuto_mask hmask]
    simpa only [hmask, if_false] using
      drawExternalMaskMergesImageUnderMask s x y bitmap mask frame maskFrame w h hs hh hmask hon hrange
        (hmaskRange hmask)

/-- Settles O43: page-aligned, the eight pixels of a framebuffer byte are the eight of one bitmap byte. -/
theorem alignedOverwriteStoresTheBitmapBytes : Obligations.AlignedOverwriteStoresTheBitmapBytes := by
  unfold Obligations.AlignedOverwriteStoresTheBitmapBytes
  intro s x y bitmap frame w h hs hh hright hbottom haligned hsize
  have ⟨_, _, _, _, hw, hh0⟩ := hh
  have hon : ¬ OffScreen s.params x y w h := by omega
  have hlast := lastCell_lt hs.params_wf hw hh0 hon
  have hrange : bitmap + 2 + frame * (w * pageRows h) + lastCell s.params x y w h < s.params.assetSize := by
    rw [Nat.add_mul, Nat.one_mul] at hsize
    omega
  obtain ⟨fb', hx, hd⟩ := drawOverwriteCopiesEveryBitmapPixel s x y bitmap frame w h hs hh hon hrange
  refine ⟨fb', hx, fun pr c hpr hc => ?_, fun j hj => hd.read_outside fun i hi hin => ?_⟩
  · refine BitVec.eq_of_getLsbD_eq fun i hi => ?_
    have hX : x + c < s.params.width := by omega
    have hY : 8 * (y / 8 + pr) + i < 8 * s.params.npages := by
      unfold pageRows at hpr
      unfold Params.npages
      omega
    have hin : InSprite x y w h (x + c : Nat) (8 * (y / 8 + pr) + i : Nat) := by omega
    rw [← pixel_page _ _ _ _ hi, hd.1 _ _ hX hY, if_pos hin]
    change plainBit _ _ _ _ _ = _
    rw [plainBit, show ((x + c : Nat) - (x : Int)).toNat = c by omega,
      show ((8 * (y / 8 + pr) + i : Nat) - (y : Int)).toNat = 8 * pr + i by omega,
      show (8 * pr + i) / 8 = pr by omega, show (8 * pr + i) % 8 = i by omega]
  · refine hj (j / s.params.width - y / 8) (j % s.params.width - x) (by omega) (by omega) ?_
    rw [show y / 8 + (j / s.params.width - y / 8) = j / s.params.width by omega,
      show x + (j % s.params.width - x) = j % s.params.width by omega, Nat.mul_comm]
    exact (Nat.div_add_mod j _).symm

end Sys2Proof.Machine
end

section
/-! SUPPORT. One draw after another: pictures composed, equal and swapped (spec/41_unmasked_family.md section 5,
spec/42_masked_family.md section 5). -/

namespace Sys2Proof.Machine

/-! ### Pictures in sequence -/

section

variable {p : Params} {m₀ m₁ m₂ : Memory} {x y : Int} {w h : Nat} {f g : Nat → Nat → Bool → Bool}

/-- Nothing drawn. -/
theorem Drawn.refl (p : Params) (m : Memory) (x y : Int) (w h : Nat) : Drawn p m m x y w h fun _ _ old => old :=
  ⟨fun _ _ _ _ => by split <;> rfl, fun _ _ => rfl⟩

/-- Two draws over one rectangle apply one operator after the other. -/
theorem Drawn.trans (d : Drawn p m₀ m₁ x y w h f) (d' : Drawn p m₁ m₂ x y w h g) :
    Drawn p m₀ m₂ x y w h fun c row old => g c row (f c row old) := by
  refine ⟨fun X Y hX hY => ?_, fun j hj => (d'.2 j hj).trans (d.2 j hj)⟩
  rw [d'.1 X Y hX hY, d.1 X Y hX hY]
  split <;> rfl

/-- Two draws whose operators commute leave the same memory in either order, whatever their rectangles. -/
theorem Drawn.comm {x' y' : Int} {w' h' : Nat} {m₁₂ m₂₁ : Memory} (hm : m₁₂.wf = true) (hm' : m₂₁.wf = true)
    (d₁ : Drawn p m₀ m₁ x y w h f) (d₁₂ : Drawn p m₁ m₁₂ x' y' w' h' g)
    (d₂ : Drawn p m₀ m₂ x' y' w' h' g) (d₂₁ : Drawn p m₂ m₂₁ x y w h f)
    (hfg : ∀ c row c' row' old, f c row (g c' row' old) = g c' row' (f c row old)) : m₁₂ = m₂₁ := by
  refine memory_ext_pixel (p := p) hm hm' (fun X Y hX hY => ?_) fun j hj => ?_
  · rw [d₁₂.1 X Y hX hY, d₁.1 X Y hX hY, d₂₁.1 X Y hX hY, d₂.1 X Y hX hY]
    split_ifs
    · exact (hfg _ _ _ _ _).symm
    all_goals rfl
  · rw [d₁₂.2 j hj, d₁.2 j hj, d₂₁.2 j hj, d₂.2 j hj]

end

variable {p : Params} {assets fb : Memory} {r : Request} {hd : Header}

/-- The operator of a plan on one sprite pixel: the merge with the bits that its cell holds for the pixel. -/
def Plan.operator (pl : Plan) (assets : Memory) (c row : Nat) (old : Bool) : Bool :=
  mergeBit pl.mode old ((imageByte pl assets (row / 8) c).getLsbD (row % 8))
    ((maskByte pl assets (row / 8) c).getLsbD (row % 8))

/-- A traversal whose operator absorbs that of the traversal before it, over the same rectangle, leaves what it leaves
alone. -/
theorem compose_absorbs {r' : Request} (hx : r'.x = r.x) (hy : r'.y = r.y) (hfb : fb.wf = true)
    (habsorbs : ∀ c row old, (planOf p r' hd).operator assets c row ((planOf p r hd).operator assets c row old) =
      (planOf p r' hd).operator assets c row old) :
    compose p assets (planOf p r' hd) (compose p assets (planOf p r hd) fb) =
      compose p assets (planOf p r' hd) fb := by
  have hfb' := wf_compose (p := p) (assets := assets) (pl := planOf p r hd) hfb
  have before := compose_drawn (p := p) (assets := assets) (r := r) (hd := hd) hfb
  have second := compose_drawn (p := p) (assets := assets) (r := r') (hd := hd) hfb'
  have alone := compose_drawn (p := p) (assets := assets) (r := r') (hd := hd) hfb
  rw [hx, hy] at second alone
  exact (before.trans second).ext (wf_compose hfb') (wf_compose hfb) alone fun _ _ _ _ _ => habsorbs ..

/-- A traversal done twice leaves what it leaves done once. -/
theorem compose_idem (hfb : fb.wf = true) :
    compose p assets (planOf p r hd) (compose p assets (planOf p r hd) fb) = compose p assets (planOf p r hd) fb :=
  compose_absorbs rfl rfl hfb fun _ _ _ => mergeBit_idem ..

/-! ### Commands in sequence -/

/-- A second fault finds `FAULT` set. -/
theorem latch_latch (code code' : FaultCode) (v : Word) : latch code' (latch code v) = latch code v :=
  latch_of_fault (statusFault_latch code v)

/-- An off-screen draw is skipped (R56). -/
theorem draw_of_offScreen {s : State} {w h : Nat} (hh : HeaderAt s.params s.assets r.bptr w h)
    (hoff : OffScreen s.params r.x r.y w h) : draw r s = .next s := by
  rw [draw_of_header hh, if_pos (offScreen_iff.mpr hoff)]

/-- The same end of the stages, the plan in another mode. -/
def Verdict.withMode (mode : MergeMode) : Verdict → Verdict
  | .draw pl => .draw { pl with mode := mode }
  | v => v

/-- `Erase` passes the stages that `SelfMasked` passes: they have one footprint. -/
theorem verdictOf_drawErase (x y : Int) (bitmap frame : Nat) (s : State) :
    verdictOf (.drawErase x y bitmap frame) s = (verdictOf (.drawSelfMasked x y bitmap frame) s).withMode .erase := by
  unfold verdictOf
  by_cases hh : ∃ w h, HeaderAt s.params s.assets bitmap w h
  · obtain ⟨w, h, hh⟩ := hh
    rw [verdict_of_header (r := requestOf (.drawErase x y bitmap frame)) hh,
      verdict_of_header (r := requestOf (.drawSelfMasked x y bitmap frame)) hh]
    simp only [apply_ite (Verdict.withMode .erase)]
    rfl
  · have hno : ∀ w h, ¬ HeaderAt s.params s.assets bitmap w h := fun w h hw => hh ⟨w, h, hw⟩
    rw [verdict_of_no_header (r := requestOf (.drawErase x y bitmap frame)) hno,
      verdict_of_no_header (r := requestOf (.drawSelfMasked x y bitmap frame)) hno]
    simp only [apply_ite (Verdict.withMode .erase)]
    rfl

/-- Erasing after setting the same pixels is erasing them (R72 (a)). -/
theorem compose_erase_selfMasked (x y : Int) (bitmap frame : Nat) (hfb : fb.wf = true) :
    compose p assets (planOf p (requestOf (.drawErase x y bitmap frame)) hd)
        (compose p assets (planOf p (requestOf (.drawSelfMasked x y bitmap frame)) hd) fb) =
      compose p assets (planOf p (requestOf (.drawErase x y bitmap frame)) hd) fb := by
  have absorbs : ∀ old image : Bool, ((old || image) && !image) = (old && !image) := by decide
  exact compose_absorbs rfl rfl hfb fun _ _ _ => absorbs ..

/-! ### Commuting commands -/

/-- The framebuffer a command leaves: it depends on the parameters, asset memory and the framebuffer alone. -/
def fbAfter (p : Params) (assets : Memory) (i : Instr) (fb : Memory) : Memory :=
  match verdict p assets (requestOf i) with
  | .skipped => fb
  | .fault _ => fb
  | .draw pl => compose p assets pl fb

theorem exec_fb {i : Instr} {s t : State} (h : exec i s = .next t) : t.fb = fbAfter s.params s.assets i s.fb := by
  rcases exec_cases i s with ⟨hv, hx⟩ | ⟨code, hv, hx⟩ | ⟨pl, hv, hx⟩ <;> cases h.symm.trans hx <;>
    rw [verdictOf] at hv <;> rw [fbAfter, hv] <;> rfl

/-- Setting pixels commutes with setting pixels, and clearing with clearing (R70, R71). -/
theorem mergeBit_comm {mode : MergeMode} (hmode : mode = .selfMasked ∨ mode = .erase) (old a k b l : Bool) :
    mergeBit mode (mergeBit mode old b l) a k = mergeBit mode (mergeBit mode old a k) b l := by
  rcases hmode with rfl | rfl
  · exact Bool.or_right_comm old b a
  · exact Bool.and_right_comm old (!b) (!a)

theorem fbAfter_comm {mode : MergeMode} (hmode : mode = .selfMasked ∨ mode = .erase) {i j : Instr}
    (hi : resolveMode (requestOf i).mode (requestOf i).mptr = mode)
    (hj : resolveMode (requestOf j).mode (requestOf j).mptr = mode) (hfb : fb.wf = true) :
    fbAfter p assets j (fbAfter p assets i fb) = fbAfter p assets i (fbAfter p assets j fb) := by
  unfold fbAfter
  cases hvi : verdict p assets (requestOf i) with
  | skipped => rfl
  | fault code => rfl
  | draw pl =>
    cases hvj : verdict p assets (requestOf j) with
    | skipped => rfl
    | fault code => rfl
    | draw pl' =>
      obtain ⟨hd, -, -, -, -, rfl⟩ := verdict_draw hvi
      obtain ⟨hd', -, -, -, -, rfl⟩ := verdict_draw hvj
      refine Drawn.comm (wf_compose (wf_compose hfb)) (wf_compose (wf_compose hfb)) (compose_drawn hfb)
        (compose_drawn (wf_compose hfb)) (compose_drawn hfb) (compose_drawn (wf_compose hfb)) fun _ _ _ _ old => ?_
      rw [show (planOf p (requestOf i) hd).mode = mode from hi, show (planOf p (requestOf j) hd').mode = mode from hj]
      exact mergeBit_comm hmode ..

/-- Two commands of one such mode can change places. -/
theorem exec_comm {mode : MergeMode} (hmode : mode = .selfMasked ∨ mode = .erase) {i j : Instr}
    (hi : resolveMode (requestOf i).mode (requestOf i).mptr = mode)
    (hj : resolveMode (requestOf j).mode (requestOf j).mptr = mode) {s : State} (hs : s.Inv) :
    ∃ t u t' u', exec i s = .next t ∧ exec j t = .next u ∧ exec j s = .next t' ∧ exec i t' = .next u' ∧
      u.fb = u'.fb := by
  obtain ⟨t, ht, -⟩ := exec_keeps_cmd i s
  obtain ⟨u, hu, -⟩ := exec_keeps_cmd j t
  obtain ⟨t', ht', -⟩ := exec_keeps_cmd j s
  obtain ⟨u', hu', -⟩ := exec_keeps_cmd i t'
  obtain ⟨hp, ha⟩ := exec_keeps_inputs ht
  obtain ⟨hp', ha'⟩ := exec_keeps_inputs ht'
  refine ⟨t, u, t', u', ht, hu, ht', hu', ?_⟩
  rw [exec_fb hu, exec_fb hu', exec_fb ht, exec_fb ht', hp, ha, hp', ha']
  exact fbAfter_comm hmode hi hj hs.fb_wf

/-! ### Frames inside asset memory -/

/-- A frame ends before the frames after it. -/
theorem frame_end_le {frame frames n : Nat} (h : frame < frames) : frame * n + n ≤ frames * n := by
  rw [← Nat.succ_mul]
  exact Nat.mul_le_mul_right n h

/-- A cell of the sprite lies inside its frame. -/
theorem cell_lt_frame {c pr w P : Nat} (hc : c < w) (hpr : pr < P) : c + pr * w < w * P :=
  calc c + pr * w < (pr + 1) * w := by rw [Nat.add_mul]; omega
    _ ≤ P * w := Nat.mul_le_mul_right w hpr
    _ = w * P := Nat.mul_comm _ _

/-- The last cell lies inside the frame of any sprite that reaches the screen's left edge. -/
theorem lastCell_lt_frame {x y : Int} {w h : Nat} (hw : w ≠ 0) (hh : h ≠ 0) (hx : 0 < x + w) :
    lastCell p x y w h < w * pageRows h := by
  have hcolumn : (clip p x y w h).lastColumn < w := by
    simp only [Clip.lastColumn, clip_xOffset, clip_renderedWidth]
    unfold renderedWidth xOffset
    split <;> split <;> omega
  have hrow : (clip p x y w h).lastRow < pageRows h := by
    have hend := endRows_le p y h
    have hpos : 1 ≤ pageRows h := by unfold pageRows; omega
    simp only [Clip.lastRow, clip_endRows]
    omega
  exact cell_lt_frame hcolumn hrow

/-- A pixel of the sprite lies in a cell of its frame. -/
theorem cell_of_inSprite {x y : Int} {w h X Y : Nat} (hin : InSprite x y w h X Y) :
    ((X : Int) - x).toNat + ((Y : Int) - y).toNat / 8 * w < w * pageRows h :=
  cell_lt_frame (by omega) (by omega)

end Sys2Proof.Machine
end

section
/-! SUPPORT. Two draws whose cells do the same: the external mask beside the unmasked modes, and beside the combined
asset (spec/42_masked_family.md R74, R77). -/

namespace Sys2Proof.Machine

/-- Merging under no mask is setting. -/
theorem merge_externalMask_zero (old image : Byte) :
    merge .externalMask old image 0 = merge .selfMasked old image 0 := by
  refine BitVec.eq_of_getLsbD_eq fun i hi => ?_
  rw [getLsbD_merge _ _ _ _ hi, getLsbD_merge _ _ _ _ hi]
  simp [mergeBit]

variable {p : Params} {assets : Memory} {r r' : Request} {hd : Header}

/-- A draw under a mask of zeros and a draw over the same rectangle that sets the same image do the same. -/
theorem compose_of_mask_zero (hx : r.x = r'.x) (hy : r.y = r'.y) (hmode : (planOf p r hd).mode = .externalMask)
    (hmode' : (planOf p r' hd).mode = .selfMasked)
    (himage : ∀ pr c, imageByte (planOf p r hd) assets pr c = imageByte (planOf p r' hd) assets pr c)
    (hmask : ∀ cell ∈ cells (clip p r.x r.y hd.w hd.h), maskByte (planOf p r hd) assets cell.1 cell.2 = 0)
    (fb : Memory) : compose p assets (planOf p r hd) fb = compose p assets (planOf p r' hd) fb := by
  have hclip : (planOf p r hd).clip = (planOf p r' hd).clip := by simp only [planOf, hx, hy]
  have hmask' : ∀ pr c, maskByte (planOf p r' hd) assets pr c = 0 := fun pr c => by simp only [maskByte, hmode']
  have hlo : ∀ n, lo8 (shifted 0 n) = 0 := fun n => by simp [lo8, shifted]
  have hhi : ∀ n, hi8 (shifted 0 n) = 0 := fun n => by simp [hi8, shifted]
  refine compose_congr hclip (fun cell hc => drawCell_congr hclip hx (fun old => ?_) (fun old => ?_)) fb
  · rw [himage, hmask cell hc, hmask', hmode, hmode', hlo, merge_externalMask_zero]
  · rw [himage, hmask cell hc, hmask', hmode, hmode', hhi, merge_externalMask_zero]

/-- Two draws over the same rectangle do the same if their modes have one operator and their cells the same bytes. -/
theorem compose_of_same_bytes (hx : r.x = r'.x) (hy : r.y = r'.y)
    (hmerge : ∀ old image mask, merge (planOf p r hd).mode old image mask = merge (planOf p r' hd).mode old image mask)
    (hbytes : ∀ cell ∈ cells (clip p r.x r.y hd.w hd.h),
      imageByte (planOf p r hd) assets cell.1 cell.2 = imageByte (planOf p r' hd) assets cell.1 cell.2 ∧
      maskByte (planOf p r hd) assets cell.1 cell.2 = maskByte (planOf p r' hd) assets cell.1 cell.2)
    (fb : Memory) : compose p assets (planOf p r hd) fb = compose p assets (planOf p r' hd) fb := by
  have hclip : (planOf p r hd).clip = (planOf p r' hd).clip := by simp only [planOf, hx, hy]
  refine compose_congr hclip (fun cell hc => ?_) fb
  obtain ⟨himage, hmask⟩ := hbytes cell hc
  exact drawCell_congr hclip hx (fun _ => by rw [himage, hmask, hmerge]) (fun _ => by rw [himage, hmask, hmerge])

/-- A `drawExternalMask` whose mask frame is inside asset memory ends as an unmasked draw of the same bitmap does, if
their traversals do the same. -/
theorem draw_externalMask_eq {s : State} {w h : Nat} (hh : HeaderAt s.params s.assets r.bptr w h)
    (hh' : HeaderAt s.params s.assets r'.bptr w h) (hx : r.x = r'.x) (hy : r.y = r'.y)
    (hmptr : r.mptr ≠ 0) (hmode' : resolveMode r'.mode r'.mptr ≠ .externalMask)
    (himg : imgMax (planOf s.params r ⟨w, h⟩) = imgMax (planOf s.params r' ⟨w, h⟩))
    (hmask : ¬ OffScreen s.params r.x r.y w h → maskMax (planOf s.params r ⟨w, h⟩) < s.params.assetSize)
    (hcompose : compose s.params s.assets (planOf s.params r ⟨w, h⟩) s.fb =
      compose s.params s.assets (planOf s.params r' ⟨w, h⟩) s.fb) : draw r s = draw r' s := by
  by_cases hon : OffScreen s.params r.x r.y w h
  · rw [draw_of_offScreen hh hon, draw_of_offScreen hh' (hx ▸ hy ▸ hon)]
  · have hrange : outOfRange s.params (planOf s.params r ⟨w, h⟩) = outOfRange s.params (planOf s.params r' ⟨w, h⟩) := by
      rw [Bool.eq_iff_iff, outOfRange_iff, outOfRange_iff, himg]
      exact or_congr_right
        ⟨fun hmax => absurd (hmask hon) (Nat.not_lt.mpr hmax.2), fun hmax => absurd hmax.1 hmode'⟩
    rw [draw_of_onScreen hh hon, draw_of_onScreen hh' (hx ▸ hy ▸ hon), hrange, hcompose,
      if_neg (mt maskMissing_iff.mp fun hnull => hmptr hnull.2),
      if_neg (mt maskMissing_iff.mp fun hnull => hmode' hnull.1)]

end Sys2Proof.Machine
end

section
/-! Obligations on the laws of the two families (spec/41_unmasked_family.md section 5, spec/42_masked_family.md
section 5). -/

namespace Sys2Proof.Machine

/-- Settles O44: the second time the stages end the same way, the latch keeps its code and the merge its pixels. -/
theorem everyCommandIsIdempotent : Obligations.EveryCommandIsIdempotent := by
  unfold Obligations.EveryCommandIsIdempotent
  intro i s hs
  rcases exec_cases i s with ⟨hv, hx⟩ | ⟨code, hv, hx⟩ | ⟨pl, hv, hx⟩
  · exact ⟨s, hx, hx⟩
  · refine ⟨_, hx, ?_⟩
    rw [exec_of_fault ((verdictOf_setStatus i s _).trans hv), State.setStatus_status, latch_latch,
      State.setStatus_setStatus]
  · refine ⟨_, hx, ?_⟩
    obtain ⟨hd, rfl⟩ := plan_of_verdictOf_draw hv
    rw [exec_of_draw ((verdictOf_setFb i s _).trans hv), State.setFb_params, State.setFb_assets, State.setFb_fb,
      compose_idem hs.fb_wf, State.setFb_setFb]

/-- Settles O45: the two commands end in the same way, and erasing absorbs what was set. -/
theorem selfMaskedThenEraseIsEraseAlone : Obligations.SelfMaskedThenEraseIsEraseAlone := by
  unfold Obligations.SelfMaskedThenEraseIsEraseAlone
  intro s x y bitmap frame hs
  have hverdict := verdictOf_drawErase x y bitmap frame s
  rcases exec_cases (.drawSelfMasked x y bitmap frame) s with ⟨hv, hx⟩ | ⟨code, hv, hx⟩ | ⟨pl, hv, hx⟩ <;>
    rw [hv] at hverdict <;> refine ⟨_, hx, ?_⟩
  · rfl
  · rw [exec_of_fault hverdict, exec_of_fault ((verdictOf_setStatus _ s _).trans hverdict), State.setStatus_status,
      latch_latch, State.setStatus_setStatus]
  · obtain ⟨hd, rfl⟩ := plan_of_verdictOf_draw hv
    rw [exec_of_draw hverdict, exec_of_draw ((verdictOf_setFb _ s _).trans hverdict), State.setFb_setFb]
    exact congrArg (fun fb => Host.Outcome.next (s.setFb fb)) (compose_erase_selfMasked x y bitmap frame hs.fb_wf)

/-- Settles O46: under the sprite the three operators leave the saved bit, which is the pixel; elsewhere nothing is
drawn. -/
theorem savedBackgroundIsRestoredExactly : Obligations.SavedBackgroundIsRestoredExactly := by
  unfold Obligations.SavedBackgroundIsRestoredExactly
  intro s x y sprite frame ones saved w h hs hsprite hones hsaved hspriteSize honesSize hsavedSize hallOnes hbackground
  by_cases hon : OffScreen s.params x y w h
  · exact ⟨s, s, (exec_eq_draw _ s).trans (draw_of_offScreen hsprite hon),
      (exec_eq_draw _ s).trans (draw_of_offScreen hones hon), (exec_eq_draw _ s).trans (draw_of_offScreen hsaved hon)⟩
  · have ⟨_, _, _, _, hw, hh⟩ := hsprite
    have hlast := lastCell_lt hs.params_wf hw hh hon
    obtain ⟨fb₁, h₁, d₁⟩ := drawOverwriteCopiesEveryBitmapPixel s x y sprite frame w h hs hsprite hon
      (by rw [Nat.add_mul, Nat.one_mul] at hspriteSize; omega)
    have hs₁ := exec_inv hs h₁
    obtain ⟨fb₂, h₂, d₂⟩ := drawEraseClearsTheBitmapPixels _ x y ones 0 w h hs₁ hones hon
      (show ones + 2 + 0 * (w * pageRows h) + lastCell s.params x y w h < s.params.assetSize by omega)
    have hs₂ := exec_inv hs₁ h₂
    obtain ⟨fb₃, h₃, d₃⟩ := drawSelfMaskedSetsTheBitmapPixels _ x y saved 0 w h hs₂ hsaved hon
      (show saved + 2 + 0 * (w * pageRows h) + lastCell s.params x y w h < s.params.assetSize by omega)
    have hrestored : fb₃ = s.fb := by
      refine ((d₁.trans d₂).trans d₃).ext (exec_inv hs₂ h₃).fb_wf hs.fb_wf (Drawn.refl s.params s.fb x y w h)
        fun X Y hX hY hin => ?_
      have hone : plainBit s.assets (ones + 2 + 0 * (w * pageRows h)) w (X - x).toNat (Y - y).toNat = true := by
        rw [← getLsbD_plainCell, Nat.zero_mul, Nat.add_zero, hallOnes _ (cell_of_inSprite hin)]
        exact getLsbD_ones (Nat.mod_lt _ (by decide))
      have hpixel := hbackground X Y hX hY hin
      rw [← Nat.add_zero (saved + 2), ← Nat.zero_mul (w * pageRows h)] at hpixel
      simp only [hone, hpixel, Bool.not_true, Bool.and_false, Bool.false_or]
    exact ⟨_, _, h₁, h₂, by rw [h₃, hrestored]⟩

/-- Settles O47: the cells of the two layouts hold the same bytes, and the two modes merge them with one operator. -/
theorem externalAndCombinedMaskGiveTheSameResult : Obligations.ExternalAndCombinedMaskGiveTheSameResult := by
  unfold Obligations.ExternalAndCombinedMaskGiveTheSameResult
  intro s x y bitmap mask combined frames frame w h hbitmap hcombined hmask hframe hbitmapSize hmaskSize hcombinedSize
    hbytes
  rw [exec_eq_draw, exec_eq_draw]
  by_cases hon : OffScreen s.params x y w h
  · exact ⟨s.fb, draw_of_offScreen hbitmap hon, draw_of_offScreen hcombined hon⟩
  · have ⟨_, _, _, _, hw, hh⟩ := hbitmap
    have hlast : lastCell s.params x y w h < w * pageRows h := lastCell_lt_frame hw hh (by omega)
    have hplain := frame_end_le (n := w * pageRows h) hframe
    have hdouble := frame_end_le (n := 2 * w * pageRows h) hframe
    have htwice : 2 * w * pageRows h = 2 * (w * pageRows h) := Nat.mul_assoc _ _ _
    have hexternal := draw_completes (r := requestOf (.drawExternalMask x y bitmap mask frame frame)) hbitmap hon
      (fun hnull => hmask hnull.2)
      (show bitmap + 2 + frame * (w * pageRows h) + lastCell s.params x y w h < s.params.assetSize by omega)
      (fun _ => show mask + frame * (w * pageRows h) + lastCell s.params x y w h < s.params.assetSize by omega)
    have hplus := draw_completes (r := requestOf (.drawPlusMask x y combined frame)) hcombined hon nofun
      (show combined + 2 + frame * (2 * w * pageRows h) + 2 * lastCell s.params x y w h + 1 < s.params.assetSize by
        omega) nofun
    refine ⟨_, hexternal, hplus.trans (congrArg (fun fb => Host.Outcome.next (s.setFb fb)) ?_)⟩
    refine compose_of_same_bytes (r := requestOf (.drawPlusMask x y combined frame))
      (r' := requestOf (.drawExternalMask x y bitmap mask frame frame)) rfl rfl (fun _ _ _ => rfl)
      (fun cell hc => ?_) s.fb
    obtain ⟨⟨hpr, -⟩, hcol, -⟩ := mem_cells_clip.mp hc
    have hcell := hbytes frame cell.1 cell.2 hframe hpr hcol
    rwa [Nat.add_assoc _ cell.2, Nat.add_assoc _ cell.2] at hcell

/-- Settles O48: under a mask of zeros the cells are set, under a mask of ones they are the own-mask of `Unmasked`. -/
theorem externalMaskOfZerosOrOnesIsAnUnmaskedDraw : Obligations.ExternalMaskOfZerosOrOnesIsAnUnmaskedDraw := by
  unfold Obligations.ExternalMaskOfZerosOrOnesIsAnUnmaskedDraw
  intro s x y bitmap mask frame maskFrame w h hs hheader hmask hsize
  have ⟨_, _, _, _, hw, hh⟩ := hheader
  have hmaskMax : ¬ OffScreen s.params x y w h →
      mask + maskFrame * (w * pageRows h) + lastCell s.params x y w h < s.params.assetSize := by
    intro hon
    have hlast := lastCell_lt hs.params_wf hw hh hon
    rw [Nat.add_mul, Nat.one_mul] at hsize
    omega
  rw [exec_eq_draw, exec_eq_draw, exec_eq_draw]
  constructor
  · intro hzeros
    have hcompose := compose_of_mask_zero (r := requestOf (.drawExternalMask x y bitmap mask frame maskFrame))
      (r' := requestOf (.drawSelfMasked x y bitmap frame)) (hd := ⟨w, h⟩) rfl rfl rfl rfl (fun _ _ => rfl) hzeros s.fb
    exact draw_externalMask_eq hheader hheader rfl rfl hmask nofun rfl hmaskMax hcompose
  · intro hones
    have hown (pr c : Nat) := maskByte_of_unmasked
      (pl := planOf s.params (requestOf (.drawOverwrite x y bitmap frame)) ⟨w, h⟩) rfl s.assets pr c
    have hcompose := compose_of_same_bytes (p := s.params) (assets := s.assets)
      (r := requestOf (.drawExternalMask x y bitmap mask frame maskFrame))
      (r' := requestOf (.drawOverwrite x y bitmap frame)) (hd := ⟨w, h⟩) rfl rfl (fun _ _ _ => rfl)
      (fun cell hc => ⟨rfl, (hones cell hc).trans (hown ..).symm⟩) s.fb
    exact draw_externalMask_eq hheader hheader rfl rfl hmask nofun rfl hmaskMax hcompose

/-- Settles O49: setting commutes with setting, and clearing with clearing. -/
theorem selfMaskedDrawsCommuteAndErasesCommute : Obligations.SelfMaskedDrawsCommuteAndErasesCommute := by
  unfold Obligations.SelfMaskedDrawsCommuteAndErasesCommute
  intro s x y x' y' bitmap frame bitmap' frame' hs
  exact ⟨exec_comm (.inl rfl) rfl rfl hs, exec_comm (.inr rfl) rfl rfl hs⟩

end Sys2Proof.Machine
end
